-- ==== Sys2Proof/Word.lean ====
section
/-! DEFINITION. The plain value types of the block: bytes, code values, phrases (rules R9, R22). -/

namespace Sys2Proof

/-- A byte of IN, and a palette index, which "fits 8 bits" (R9). -/
abbrev Byte := BitVec 8

/-- The CODE register: a code value zero-extended to 16 bits (R19, R52). -/
abbrev Code := BitVec 16

/-- "an ordered sequence of palette indices associated with one dictionary code" (00_scope.md, glossary). -/
abbrev Phrase := List Byte

end Sys2Proof
end

