-- ==== Sys2Proof/Syntax.lean ====
section
/-! DEFINITION. The six classes of code, one constructor per row of spec/opcode_table.json (rule R53), and the part of
the decoder's state a class depends on. -/

namespace Sys2Proof

/-- A code, by its class (R53), with the operand the class's rule gives it (R90 to R95). -/
inductive Instr where
  /-- Clear Code, idx = K (R90). -/
  | clr
  /-- End-of-Information, idx = K+1 (R91). -/
  | eoi
  /-- A known code of the base palette range, n = idx < K (R92). -/
  | lit (n : Code)
  /-- A known code of the learned range, K+2 <= c = idx < SIZE (R93). -/
  | ref (c : Code)
  /-- The code equal to the dictionary size, idx = SIZE; no operand (R94). -/
  | imp
  /-- A code beyond the dictionary, c = idx > SIZE (R95). -/
  | byd (c : Code)
  deriving DecidableEq, Repr

/-- What the width and the class of a code depend on: K and SIZE "as they are when the code is extracted" (R49, R53). -/
structure CodeCtx where
  k : BitVec 9
  size : Nat
  deriving DecidableEq, Repr

end Sys2Proof
end

