-- ==== Sys2Proof/Decode.lean ====
section
/-! DEFINITION. The width of a code, its extraction from the 3-byte window, its class, and the decoder on any bytes
(rules R35, R48 to R54, R70 to R75); after them the encoder and the assembler of a code stream (rule R57). -/

namespace Sys2Proof

/-! ## The width (R70, R71) -/

/-- clog2(n), "the least integer c >= 0 such that 2^c >= n" (R70), written with the floor of the logarithm.
clog2(0) "is not defined and never asked": it is 0 here and nothing rests on it (assumption log 16). -/
def clog2 (n : Nat) : Nat :=
  if n ≤ 1 then 0 else Nat.log2 (n - 1) + 1

/-- W(n), the code width at dictionary size n: "if c = 13 then 12 else c" (R71). -/
def codeWidth (n : Nat) : Nat :=
  if clog2 n = 13 then 12 else clog2 n

/-- The widths the one format has: "2 <= w <= 16" (R48). -/
def widthOk (w : Nat) : Bool :=
  decide (2 ≤ w ∧ w ≤ 16)

/-! ## Extraction from the window (R36, R52, R73, R74) -/

/-- need: the bytes that hold a bit of the code (R73). -/
def codeNeed (off : BitVec 3) (w : Nat) : Nat :=
  (off.toNat + w + 7) / 8

/-- adv: the whole bytes consumed (R73). -/
def codeAdv (off : BitVec 3) (w : Nat) : Nat :=
  (off.toNat + w) / 8

/-- The bit offset after the code (R73). -/
def codeNextOff (off : BitVec 3) (w : Nat) : BitVec 3 :=
  BitVec.ofNat 3 ((off.toNat + w) % 8)

/-- The 24-bit little-endian reading of three consecutive bytes, the first one lowest (R18, R36). -/
def windowOf (b0 b1 b2 : Byte) : BitVec 24 :=
  b2 ++ b1 ++ b0

/-- idx = (WIN >> OFF) & (2^w - 1), zero-extended to 16 bits (R52, R73). -/
def codeValue (win : BitVec 24) (off : BitVec 3) (w : Nat) : Code :=
  ((win >>> off.toNat) &&& BitVec.ofNat 24 (2 ^ w - 1)).setWidth 16

/-! ## The class of a value (R53) -/

/-- The tests of R53, in its order. -/
def classify (ctx : CodeCtx) (idx : Code) : Instr :=
  if idx.toNat = ctx.k.toNat then .clr
  else if idx.toNat = ctx.k.toNat + 1 then .eoi
  else if idx.toNat < ctx.k.toNat then .lit idx
  else if idx.toNat < ctx.size then .ref idx
  else if idx.toNat = ctx.size then .imp
  else .byd idx

/-! ## The decoder -/

/-- What the decoder answers. -/
inductive DecodeResult where
  /-- A whole code: its class and operand, its value, its width. -/
  | code (i : Instr) (idx : Code) (w : Nat)
  /-- Some byte that holds a bit of the code does not exist (R75). -/
  | truncated
  /-- SIZE gives a width outside 2..16, for which R48 has no format. R72 shows that no run meets it. -/
  | noFormat
  deriving DecidableEq, Repr

/-- The decoder on a window: `avail` bytes exist from the window's first one on (R73, R75). The exhaustion test comes
before any bit is used, and bytes past `avail` are not needed. -/
def decodeWindow (ctx : CodeCtx) (off : BitVec 3) (avail : Nat) (win : BitVec 24) : DecodeResult :=
  let w := codeWidth ctx.size
  if widthOk w then
    if avail < codeNeed off w then .truncated
    else .code (classify ctx (codeValue win off w)) (codeValue win off w) w
  else .noFormat

/-- The decoder on any bytes, the code starting at bit `off` of the first; a missing byte of the window reads 0x00
(R38). -/
def decodeBytes (ctx : CodeCtx) (off : BitVec 3) (bytes : List Byte) : DecodeResult :=
  decodeWindow ctx off bytes.length (windowOf (bytes.getD 0 0#8) (bytes.getD 1 0#8) (bytes.getD 2 0#8))

/-! ## The encoder (R48, R53, R57) -/

/-- The value of a code, from the conditions of R53. -/
def codeIdx (ctx : CodeCtx) : Instr → Nat
  | .clr => ctx.k.toNat
  | .eoi => ctx.k.toNat + 1
  | .lit n => n.toNat
  | .ref c => c.toNat
  | .imp => ctx.size
  | .byd c => c.toNat

/-- The low `w` bits of a number, the least significant first. -/
def bitsLsbFirst (w n : Nat) : List Bool :=
  (List.range w).map n.testBit

/-- A code's w = W(SIZE) bits, least significant first (R35, R48). -/
def encode (ctx : CodeCtx) (i : Instr) : List Bool :=
  bitsLsbFirst (codeWidth ctx.size) (codeIdx ctx i)

/-- The value of a list of bits, the first one least significant. -/
def bitsNat : List Bool → Nat
  | [] => 0
  | b :: bs => b.toNat + 2 * bitsNat bs

/-- Bits into bytes: bit n of the area is bit (n mod 8) of byte (n div 8); the unused high bits of the last byte are
0 (R35, R57). -/
def packBits (bits : List Bool) : List Byte :=
  (List.range ((bits.length + 7) / 8)).map fun j => BitVec.ofNat 8 (bitsNat ((bits.drop (8 * j)).take 8))

/-! ## The assembler (R57): the width of each code depends on the codes before it -/

/-- What the size and the previous-phrase flag become after a code that does not fault (the table of R99). -/
def nextCtx (ctx : CodeCtx) (prevValid : Bool) : Instr → CodeCtx × Bool
  | .clr => ({ ctx with size := ctx.k.toNat + 2 }, false)
  | .eoi => (ctx, prevValid)
  | .lit _ => (if prevValid then { ctx with size := ctx.size + 1 } else ctx, true)
  | .ref _ => (if prevValid then { ctx with size := ctx.size + 1 } else ctx, true)
  | .imp => ({ ctx with size := ctx.size + 1 }, true)
  | .byd _ => ({ ctx with size := ctx.size + 1 }, true)

/-- The bits of a list of codes, each at the width the codes before it give (R57). -/
def assembleBits (ctx : CodeCtx) (prevValid : Bool) : List Instr → List Bool
  | [] => []
  | i :: is => encode ctx i ++ assembleBits (nextCtx ctx prevValid i).1 (nextCtx ctx prevValid i).2 is

/-- The buffer IN of a list of codes: the minimum-code-size byte, then the packed codes (R34, R57). -/
def assemble (mcs : Byte) (k : BitVec 9) (is : List Instr) : List Byte :=
  mcs :: packBits (assembleBits { k := k, size := k.toNat + 2 } false is)

/-! ## The opcode table's words

All six rows of spec/opcode_table.json have the one encoding `iiiiiiiiiiiiiiii`: no bit of a word tells its class, only
K and SIZE do (30_encoding.md, before section 1). A word alone therefore decodes only in a context; the model fixes
one (DESIGN CHOICE, assumption log 12). -/

/-- The size at which a word of the table is read: 5, where with K = 2 the values 0 to 7 are 3 bits wide and take in
all six classes; for a greater value the least size above that whose width holds it. -/
def tableSize (w : Nat) : Nat :=
  if w < 8 then 5 else if Nat.log2 w = 12 then 8193 else 2 ^ Nat.log2 w + 1

/-- The context in which a word of the opcode table is decoded: K = 2 and `tableSize`. -/
def tableCtx (w : Nat) : CodeCtx :=
  { k := 2#9, size := tableSize w }

/-- A word of the table as the bytes of the stream hold it: low byte first, from bit 0 (R35). -/
def tableBytes (nbits w : Nat) : List Byte :=
  [BitVec.ofNat 8 (w % 2 ^ nbits), BitVec.ofNat 8 (w % 2 ^ nbits / 256)]

/-- The instruction the decoder reads from a word of the opcode table, in the context `tableCtx`. -/
def decodeTableWord (nbits w : Nat) : Option Instr :=
  if w % 2 ^ nbits < 65536 then
    match decodeBytes (tableCtx (w % 2 ^ nbits)) 0#3 (tableBytes nbits w) with
    | .code i _ _ => some i
    | .truncated => none
    | .noFormat => none
  else none

end Sys2Proof
end

