-- ==== Sys2Proof/Config.lean ====
section
/-! DEFINITION. What an implementation fixes (rule R10), what an unlisted byte of IN reads as (rule R38), and the
free values of everything the spec leaves unspecified (rules R31, R61; 93_implementation_defined.md U8). -/

namespace Sys2Proof

/-- ERR_INFO, the record of a fault (R27, R101): BP, OFF, SIZE, NCODES and CODE at the fault; K for BAD_CONFIG.
Which of the fields a given fault records is said by `record…` in Machine/Ops.lean. -/
structure ErrInfo where
  bp : Nat
  off : BitVec 3
  size : Nat
  ncodes : Nat
  code : Code
  k : BitVec 9
  deriving DecidableEq, Repr, Inhabited

/-- One value for each element that some rule calls unspecified (R31: after RESET; 10_state.md section 2: WIDTH, CODE,
ERR_INFO, and MCS when LEN = 0, after START; R61: ERR_INFO but for K). -/
structure Unspecified where
  k : BitVec 9
  len : Nat
  mcs : Byte
  bp : Nat
  off : BitVec 3
  width : BitVec 5
  code : Code
  ncodes : Nat
  dict : List Phrase
  orig : BitVec 9
  prev : Option Phrase
  errInfo : ErrInfo
  deriving DecidableEq, Repr, Inhabited

namespace Config

/-- The free values: DESIGN CHOICE, assumption log 4, 5 and 6. It has no body, so nothing can be proved of any value
it gives; the argument is the counter `State.free`, advanced at each use. -/
opaque unspecified : Nat → Unspecified

/-- The greatest DICT_CAP an implementation may have (R10, R72). -/
def dictCapMax : Nat := 65536

/-- The default DICT_CAP (R10). -/
def dictCapDefault : Nat := 65536

/-- What an unlisted byte of IN reads as: 0x00, the value R38 gives a byte that does not exist (DESIGN CHOICE for a
byte below LEN that the host never placed, assumption log 7). -/
def unlistedByte : Byte := 0#8

end Config

end Sys2Proof
end

