-- ==== Sys2Proof/Machine/State.lean ====
section
/-! DEFINITION. The state of the block: every element of the table of 10_state.md section 2, the buffer IN, the
parameter DICT_CAP, and the model's own two fields (the host's turns and the free-value counter); the outcomes; the
state after reset (rule R31). -/

namespace Sys2Proof.Machine

/-- STATE (R26). -/
inductive Phase where
  /-- 0: reset, no decode started yet. -/
  | idle
  /-- 1: a decode is in progress. -/
  | run
  /-- 2: the run ended at an End-of-Information code. -/
  | done
  /-- 3: the run ended in a fatal error. -/
  | fault
  deriving DecidableEq, Repr

/-- ERR (R27, R101). -/
inductive ErrCode where
  /-- 0: no fault. -/
  | none
  /-- 1: the next code needs a bit at or beyond bit 8*LEN. -/
  | truncatedLzw
  /-- 2: a code >= SIZE with no previous phrase. -/
  | noPrefix
  /-- 3: an append is due while SIZE = DICT_CAP. -/
  | dictFull
  /-- 4: START with an illegal K. -/
  | badConfig
  deriving DecidableEq, Repr

/-- The kind of a warning; the block produces one (R28, R102). -/
inductive WarnKind where
  /-- 1: a code beyond the dictionary. -/
  | dictCorrupt
  deriving DecidableEq, Repr

/-- A warning record: (kind, idx, SIZE at the time, NCODES) (R28, R102). -/
structure WarnRec where
  kind : WarnKind
  code : Code
  size : Nat
  ncodes : Nat
  deriving DecidableEq, Repr

/-- One turn of the host, the only other party (R11, R58). The turns still to come are plain data in the state; a step
reads one (DESIGN CHOICE, assumption log 1). -/
inductive HostTurn where
  /-- The host issues nothing: the block takes its STEP if one is enabled. -/
  | pass
  /-- The consumer of OUT is not ready: the block waits, which "changes no value and no order" (R58). -/
  | wait
  /-- The host puts a byte of the buffer IN in place (R45, R114). -/
  | writeIn (addr : Nat) (b : Byte)
  /-- The RESET command (R59). -/
  | reset
  /-- The START command with its operands K (9 bits) and LEN (R58, R60). -/
  | start (k : BitVec 9) (len : Nat)
  deriving DecidableEq, Repr

/-- The state of the block. SIZE, OUT_COUNT, WARN_COUNT, PREV_VALID and WIN are views of it (Machine/Ops.lean and
Machine/Flags.lean; assumption log 10). -/
structure State where
  /-- K (R13). -/
  k : BitVec 9
  /-- LEN (R14). -/
  len : Nat
  /-- MCS (R15). -/
  mcs : Byte
  /-- BP, the byte pointer (R16). -/
  bp : Nat
  /-- OFF, the bit offset (R16). -/
  off : BitVec 3
  /-- WIDTH (R19). -/
  width : BitVec 5
  /-- CODE (R19). -/
  code : Code
  /-- NCODES (R19). -/
  ncodes : Nat
  /-- DICT, indexed by code (R22). -/
  dict : List Phrase
  /-- ORIG (R23). -/
  orig : BitVec 9
  /-- PREV and PREV_VALID in one: `none` is PREV_VALID = 0 (R20). -/
  prev : Option Phrase
  /-- OUT (R25). -/
  out : List Byte
  /-- STATE (R26). -/
  phase : Phase
  /-- ERR (R27). -/
  err : ErrCode
  /-- ERR_INFO (R27). -/
  errInfo : ErrInfo
  /-- WARN_LOG (R28). -/
  warnLog : List WarnRec
  /-- The buffer IN (R33, R34): strictly rising addresses, no entry equal to `Config.unlistedByte`. -/
  inMem : List Host.Cell
  /-- DICT_CAP, the implementation's parameter (R10); nothing writes it. -/
  dictCap : Nat
  /-- The MODEL's own: the host's turns still to come (assumption log 1). -/
  host : List HostTurn
  /-- The MODEL's own: which free value is next (assumption log 4). -/
  free : Nat
  deriving DecidableEq, Repr

/-- Why the machine stops. None of these is the spec's FAULT (that is a next state, R104): each is raised only in a
state or on an operand that no run reaches, and each is SAFE (the model stops where the spec defines nothing). -/
inductive Fault where
  /-- Raised by `execLit`, `execRef`, `execByd` on an operand that does not meet its class's condition (R53), which
  `classify` never gives. Safe. -/
  | operandOutOfClass
  /-- Raised by `execLit`, `execRef` when DictRead's code is not in the dictionary: "never called on an absent entry, so
  there is no read of an undefined entry case to define" (R78). Safe. -/
  | dictReadAbsent
  /-- Raised by `execLit`, `execRef`, `execImp`, `execByd` when a phrase is empty, so that its first item is not defined
  (00_scope.md section 5; R86 and R97 exclude it). Safe. -/
  | emptyPhrase
  /-- Raised by a STEP whose dictionary size gives no width from 2 to 16 (R48; R72 excludes it). Safe. -/
  | noCodeFormat
  deriving DecidableEq, Repr

/-- Why a turn has no meaning. -/
inductive Refusal where
  /-- An instruction that has no meaning yet; raised by `exec` alone. Safe. -/
  | notModelled (mnemonic : String)
  /-- Raised by the host's turn `writeIn` while STATE = RUN, which R115 forbids the host and U12 gives "no move in the
  model". Safe. -/
  | inWrittenDuringRun
  /-- Raised by START with a legal K when K+2 > DICT_CAP, a capacity R10 does not allow for that K. Safe. -/
  | dictCapBelowBase
  deriving DecidableEq, Repr

/-- How a statement of a step's pseudocode ends (R63, R104). -/
inductive Flow where
  /-- The next statement is performed. -/
  | cont (s : State)
  /-- A fault of the block was raised; the rest of the STEP is not performed. -/
  | raised (s : State)
  /-- The statement is not defined in this state. -/
  | stuck (f : Fault)
  deriving Repr

/-- What EXTRACT answers (R73). -/
inductive Extracted where
  /-- The class and operand of the code, and the state with the position advanced. -/
  | code (i : Instr) (s : State)
  /-- The state after `raise TruncatedLzw`. -/
  | truncated (s : State)
  /-- SIZE gives no width the format has. -/
  | noFormat
  deriving Repr

/-- The machine right after RESET (R31): STATE, ERR, WARN_LOG and OUT as the rule says; every other element is
unspecified there and zero, empty or absent here (DESIGN CHOICE, assumption log 3, unsafe); DICT_CAP at its default
(R10); no byte of IN in place; no turn of the host to come. -/
def State.reset : State where
  k := 0#9
  len := 0
  mcs := 0#8
  bp := 0
  off := 0#3
  width := 0#5
  code := 0#16
  ncodes := 0
  dict := []
  orig := 0#9
  prev := none
  out := []
  phase := .idle
  err := .none
  errInfo := { bp := 0, off := 0#3, size := 0, ncodes := 0, code := 0#16, k := 0#9 }
  warnLog := []
  inMem := []
  dictCap := Config.dictCapDefault
  host := []
  free := 0

end Sys2Proof.Machine
end

