-- ==== Sys2Proof/Machine/Ops.lean ====
section
/-! DEFINITION. The named operations over the state: the buffer IN, the views SIZE, OUT_COUNT, WARN_COUNT and WIN, the
fault entry `raise` (rule R104), the warning entry `warn` (rule R106), `emit` (rule R89), and the dictionary
primitives (rules R76 to R84). -/

namespace Sys2Proof.Machine

/-! ## The buffer IN (R33 to R40) -/

/-- The byte at an address; an unlisted one reads `Config.unlistedByte`. -/
def Memory.read : List Host.Cell → Nat → Byte
  | [], _ => Config.unlistedByte
  | (a, b) :: rest, x => if x = a then b else Memory.read rest x

/-- Writing a byte, in canonical form: `Config.unlistedByte` removes the entry. -/
def Memory.write : List Host.Cell → Nat → Byte → List Host.Cell
  | [], x, v => if v = Config.unlistedByte then [] else [(x, v)]
  | (a, b) :: rest, x, v =>
    if x < a then (if v = Config.unlistedByte then (a, b) :: rest else (x, v) :: (a, b) :: rest)
    else if x = a then (if v = Config.unlistedByte then rest else (x, v) :: rest)
    else (a, b) :: Memory.write rest x v

/-- Writing consecutive bytes from an address on. -/
def Memory.writeBytes : List Host.Cell → Nat → List Byte → List Host.Cell
  | m, _, [] => m
  | m, x, v :: vs => Memory.writeBytes (Memory.write m x v) (x + 1) vs

/-- The canonical form: addresses strictly rising, no entry equal to `Config.unlistedByte`. -/
def Memory.wf : List Host.Cell → Bool
  | [] => true
  | (a, b) :: rest => decide (b ≠ Config.unlistedByte) && rest.all (fun c => decide (a < c.1)) && Memory.wf rest

/-- MemRead(addr, 1): a byte of IN; "A byte at an address >= LEN reads as 0x00" (00_scope.md section 6, R38). -/
def State.memByte (s : State) (addr : Nat) : Byte :=
  if addr < s.len then Memory.read s.inMem addr else 0#8

/-- MemRead(addr, 3): the byte at addr lowest (R36). -/
def State.memWindow (s : State) (addr : Nat) : BitVec 24 :=
  windowOf (s.memByte addr) (s.memByte (addr + 1)) (s.memByte (addr + 2))

/-- Bit number n of the buffer: bit (n mod 8) of byte IN[n div 8] (00_scope.md section 5). -/
def State.inBit (s : State) (n : Nat) : Bool :=
  (s.memByte (n / 8)).getLsbD (n % 8)

/-! ## Views (assumption log 10) -/

/-- WIN, the 3-byte window: "a view of IN at BP, not independent state" (R18). -/
def State.win (s : State) : BitVec 24 :=
  s.memWindow s.bp

/-- SIZE, the "current number of entries" of DICT (R22). -/
def State.size (s : State) : Nat :=
  s.dict.length

/-- OUT_COUNT = len(OUT) (R25). -/
def State.outCount (s : State) : Nat :=
  s.out.length

/-- WARN_COUNT, the number of warnings recorded (R28, R106). -/
def State.warnCount (s : State) : Nat :=
  s.warnLog.length

/-- What the width and the class of the next code depend on (R49, R53). -/
def State.ctx (s : State) : CodeCtx :=
  { k := s.k, size := s.size }

/-! ## Faults and warnings (R101 to R107) -/

/-- The free values in force (assumption log 4). -/
def State.unspecified (s : State) : Unspecified :=
  Config.unspecified s.free

/-- ERR_INFO's fields for TRUNCATED_LZW: BP, OFF, SIZE, NCODES (R101). -/
def recordPosition (s : State) (r : ErrInfo) : ErrInfo :=
  { r with bp := s.bp, off := s.off, size := s.size, ncodes := s.ncodes }

/-- ERR_INFO's fields for NO_PREFIX and DICT_FULL: CODE, SIZE, NCODES, BP, OFF (R101). -/
def recordCode (s : State) (r : ErrInfo) : ErrInfo :=
  { recordPosition s r with code := s.code }

/-- ERR_INFO's field for BAD_CONFIG: K, the rest unspecified (R61, R101). -/
def recordConfig (k : BitVec 9) (r : ErrInfo) : ErrInfo :=
  { r with k := k }

/-- `raise X(info)`: ERR, ERR_INFO, STATE <- FAULT, "and nothing else" (R104). `record` writes the fields of ERR_INFO
that X records over free values (assumption log 6). -/
def raise (e : ErrCode) (record : ErrInfo → ErrInfo) (s : State) : State :=
  { s with err := e, errInfo := record s.unspecified.errInfo, phase := .fault, free := s.free + 1 }

/-- `Warn(kind, info)`: one record more (R106). WARN_COUNT is its count. -/
def warn (kind : WarnKind) (idx : Code) (s : State) : State :=
  { s with warnLog := s.warnLog ++ [{ kind := kind, code := idx, size := s.size, ncodes := s.ncodes }] }

/-- The next statement after one that ended so; after a fault it is not performed (R104). -/
def Flow.andThen : Flow → (State → Flow) → Flow
  | .cont s, f => f s
  | .raised s, _ => .raised s
  | .stuck r, _ => .stuck r

/-- The outcome of a step whose last statement ended so: a raised fault is the state FAULT, a next state (R104). -/
def Flow.outcome : Flow → Host.Outcome State Fault Refusal
  | .cont s => .next s
  | .raised s => .next s
  | .stuck f => .fault f

/-! ## Output (R89) -/

/-- Emit(p): the indices of p, first index first, onto OUT. -/
def emit (p : Phrase) (s : State) : State :=
  { s with out := s.out ++ p }

/-! ## The dictionary (R76 to R84) -/

/-- DICT_INIT(K)'s entries: K singletons [0] .. [K-1], then the two reserved entries, which hold [] (R76, D6). -/
def dictInit (k : BitVec 9) : List Phrase :=
  (List.range k.toNat).map (fun i => [BitVec.ofNat 8 i]) ++ [[], []]

/-- DictTruncate(): codes 0 .. ORIG-1 are kept (R77). -/
def dictTruncate (s : State) : State :=
  { s with dict := s.dict.take s.orig.toNat }

/-- DictRead(c) = DICT[c]; none where there is no such entry (R78). -/
def State.dictRead (s : State) (c : Nat) : Option Phrase :=
  s.dict[c]?

/-- DICT <- DICT ++ [p], so that p is entry number SIZE; SIZE <- SIZE + 1 (R83). -/
def pushEntry (p : Phrase) (s : State) : State :=
  { s with dict := s.dict ++ [p] }

/-- DictAppend(p): DICT_FULL "if SIZE = DICT_CAP", else the append (R83, R84). -/
def dictAppend (p : Phrase) (s : State) : Flow :=
  if s.size = s.dictCap then .raised (raise .dictFull (recordCode s) s) else .cont (pushEntry p s)

/-- The duplicate check: "exists j in [0, ORIG) with DICT[j] identical to cand" (R79, R80, R81). -/
def State.baseHas (s : State) (cand : Phrase) : Bool :=
  decide (cand ∈ s.dict.take s.orig.toNat)

/-- LEARN's insert for a candidate: append unless the base range holds it (R79). -/
def learnCandidate (cand : Phrase) (s : State) : Flow :=
  if s.baseHas cand then .cont s else dictAppend cand s

end Sys2Proof.Machine
end

