-- ==== Sys2Proof/Machine/Flags.lean ====
section
/-! DEFINITION. The flags of the block (rule R21): PREV_VALID with PREV, and STATE with the levels DONE and FAULT. "No
operation writes a flag as a hidden side effect", so these are all the flag computations there are. -/

namespace Sys2Proof.Machine

/-- PREV_VALID: 1 when a previous phrase exists (R20). -/
def State.prevValid (s : State) : Bool :=
  s.prev.isSome

/-- PREV <- P ; PREV_VALID <- 1 (R92 to R95). -/
def setPrev (p : Phrase) (s : State) : State :=
  { s with prev := some p }

/-- PREV_VALID <- 0, the previous phrase is discarded (R90). -/
def clearPrev (s : State) : State :=
  { s with prev := none }

/-- STATE <- DONE (R91). -/
def finish (s : State) : State :=
  { s with phase := .done }

/-- The level DONE = (STATE = 2) (R58, R108). -/
def State.doneLine (s : State) : Bool :=
  decide (s.phase = .done)

/-- The level FAULT = (STATE = 3) (R58, R108). -/
def State.faultLine (s : State) : Bool :=
  decide (s.phase = .fault)

/-- STATE as 2 bits (R26). -/
def Phase.num : Phase → BitVec 2
  | .idle => 0#2
  | .run => 1#2
  | .done => 2#2
  | .fault => 3#2

/-- ERR as 3 bits (R27, R101). -/
def ErrCode.num : ErrCode → BitVec 3
  | .none => 0#3
  | .truncatedLzw => 1#3
  | .noPrefix => 2#3
  | .dictFull => 3#3
  | .badConfig => 4#3

/-- The number of a warning's kind (R102). -/
def WarnKind.num : WarnKind → Nat
  | .dictCorrupt => 1

end Sys2Proof.Machine
end

