-- ==== Sys2Proof/Machine/Operands.lean ====
section
/-! DEFINITION. The operand forms: the code value cut from IN at (BP, OFF) (EXTRACT, rules R73 and R75), the phrase a known
code names (rule R78), and the phrase an absent code implies (rules R94, R95). -/

namespace Sys2Proof.Machine

/-- EXTRACT's writes: the position moves past the code, WIDTH, CODE, NCODES + 1 (R17, R73). -/
def advance (idx : Code) (w : Nat) (s : State) : State :=
  { s with
    bp := s.bp + codeAdv s.off w
    off := codeNextOff s.off w
    width := BitVec.ofNat 5 w
    code := idx
    ncodes := s.ncodes + 1 }

/-- `raise TruncatedLzw(BP, OFF, SIZE, NCODES)`; the position is left at the start of the code (R75). -/
def raiseTruncated (s : State) : State :=
  raise .truncatedLzw (recordPosition s) s

/-- EXTRACT (R73): the decoder on the window at BP, of which LEN - BP bytes exist. -/
def extract (s : State) : Extracted :=
  match decodeWindow s.ctx s.off (s.len - s.bp) s.win with
  | .code i idx w => .code i (advance idx w s)
  | .truncated => .truncated (raiseTruncated s)
  | .noFormat => .noFormat

/-- What comes of a known code's phrase: `use` is given the phrase and its first index. A phrase that is absent or empty
is none that R78 or R89 defines. -/
def withPhrase (s : State) (c : Nat) (use : Phrase → Byte → Flow) : Flow :=
  match s.dictRead c with
  | none => .stuck .dictReadAbsent
  | some [] => .stuck .emptyPhrase
  | some (x :: xs) => use (x :: xs) x

/-- What comes of an absent code: NO_PREFIX if there is no previous phrase (R96), else `use` is given
PREV ++ [first(PREV)] (R94, R95). -/
def withImplied (s : State) (use : Phrase → Flow) : Flow :=
  match s.prev with
  | none => .raised (raise .noPrefix (recordCode s) s)
  | some [] => .stuck .emptyPhrase
  | some (x :: xs) => use (x :: xs ++ [x])

end Sys2Proof.Machine
end

