-- ==== Sys2Proof/Machine/Absent.lean ====
section
/-! DEFINITION. The codes not in the dictionary (43_phrase_pipeline.md section 4). -/

namespace Sys2Proof.Machine

/-- The statements IMP and BYD share: synthesize, emit, append at SIZE with no duplicate check, replace PREV (R94, R95);
NO_PREFIX first if there is no previous phrase (R96). -/
def performImplied (s : State) : Flow :=
  withImplied s fun p => (dictAppend p (emit p s)).andThen fun t => .cont (setPrev p t)

/-- IMP, the code equal to the dictionary size (R94). -/
def execImp (s : State) : Host.Outcome State Fault Refusal :=
  (performImplied s).outcome

/-- BYD c, a code beyond the dictionary: the warning first, unconditionally, then as IMP (R95). -/
def execByd (c : Code) (s : State) : Host.Outcome State Fault Refusal :=
  if s.size < c.toNat then (performImplied (warn .dictCorrupt c s)).outcome else .fault .operandOutOfClass

end Sys2Proof.Machine
end

