-- ==== Sys2Proof/Machine/Known.lean ====
section
/-! DEFINITION. The known codes (43_phrase_pipeline.md section 3). -/

namespace Sys2Proof.Machine

/-- LEARN(P) for a phrase whose first index is x, performed only when PREV_VALID = 1, with the old PREV:
cand = PREV ++ [x] (R79). -/
def learn (x : Byte) (s : State) : Flow :=
  match s.prev with
  | none => .cont s
  | some q => learnCandidate (q ++ [x]) s

/-- The statements LIT and REF share, in the source's order: read, emit, learn, replace PREV (R92, R93). -/
def performKnown (c : Nat) (s : State) : Flow :=
  withPhrase s c fun p x => (learn x (emit p s)).andThen fun t => .cont (setPrev p t)

/-- LIT n, a known code in the base palette range (R92). -/
def execLit (n : Code) (s : State) : Host.Outcome State Fault Refusal :=
  if n.toNat < s.k.toNat then (performKnown n.toNat s).outcome else .fault .operandOutOfClass

/-- REF c, a known code in the learned range (R93). -/
def execRef (c : Code) (s : State) : Host.Outcome State Fault Refusal :=
  if s.k.toNat + 2 ≤ c.toNat ∧ c.toNat < s.size then (performKnown c.toNat s).outcome
  else .fault .operandOutOfClass

end Sys2Proof.Machine
end

