-- ==== Sys2Proof/Machine/Reserved.lean ====
section
/-! DEFINITION. The two reserved codes (43_phrase_pipeline.md section 2). -/

namespace Sys2Proof.Machine

/-- CLR, the Clear Code (R90). -/
def execClr (s : State) : Host.Outcome State Fault Refusal :=
  .next (clearPrev (dictTruncate s))

/-- EOI, End-of-Information (R91). -/
def execEoi (s : State) : Host.Outcome State Fault Refusal :=
  .next (finish s)

end Sys2Proof.Machine
end

