-- ==== Sys2Proof/Machine/Dispatch.lean ====
section
/-! DEFINITION. What each class of code does once it has been extracted and classified: one arm per constructor. -/

namespace Sys2Proof.Machine

def exec (i : Instr) (s : State) : Host.Outcome State Fault Refusal :=
  match i with
  | .clr => Sys2Proof.Machine.execClr s
  | .eoi => Sys2Proof.Machine.execEoi s
  | .lit n => Sys2Proof.Machine.execLit n s
  | .ref c => Sys2Proof.Machine.execRef c s
  | .imp => Sys2Proof.Machine.execImp s
  | .byd c => Sys2Proof.Machine.execByd c s

end Sys2Proof.Machine
end

