-- ==== Sys2Proof/Machine/Lifecycle.lean ====
section
/-! DEFINITION. What the host can do to the block: RESET, START, and putting the bytes of IN in place
(40_lifecycle.md section 2; rules R45, R114). -/

namespace Sys2Proof.Machine

/-- K in {2, 4, 8, 16, 32, 64, 128, 256} (R8, R60). -/
def legalK (k : BitVec 9) : Bool :=
  decide (k ∈ [2#9, 4#9, 8#9, 16#9, 32#9, 64#9, 128#9, 256#9])

/-- RESET (R59): STATE, ERR, the warnings and OUT; "every other element: unspecified" (R31), so each takes a free value
(assumption log 4). IN and DICT_CAP are no elements of the block (R12) and stay. -/
def resetCommand (s : State) : State :=
  { s with
    phase := .idle, err := .none, warnLog := [], out := []
    k := s.unspecified.k, len := s.unspecified.len, mcs := s.unspecified.mcs
    bp := s.unspecified.bp, off := s.unspecified.off
    width := s.unspecified.width, code := s.unspecified.code, ncodes := s.unspecified.ncodes
    dict := s.unspecified.dict, orig := s.unspecified.orig, prev := s.unspecified.prev
    errInfo := s.unspecified.errInfo
    free := s.free + 1 }

/-- The byte START latches into MCS: IN[0] if LEN >= 1, else unspecified (R15, R60; assumption log 5). -/
def latchedMcs (len : Nat) (s : State) : Byte :=
  if 1 ≤ len then { s with len := len }.memByte 0 else s.unspecified.mcs

/-- START with a legal K (R60); WIDTH, CODE and ERR_INFO are unspecified after it (10_state.md section 2), so each takes
a free value (assumption log 5). -/
def startLegal (k : BitVec 9) (len : Nat) (s : State) : State :=
  { s with
    k := k, len := len, orig := k + 2#9
    mcs := latchedMcs len s
    dict := dictInit k
    prev := none
    bp := 1, off := 0#3, ncodes := 0
    out := []
    err := .none, warnLog := []
    phase := .run
    width := s.unspecified.width, code := s.unspecified.code, errInfo := s.unspecified.errInfo
    free := s.free + 1 }

/-- START with an illegal K: K and LEN, then the fault BAD_CONFIG, which records K; OUT and the warnings emptied (R61). -/
def startIllegal (k : BitVec 9) (len : Nat) (s : State) : State :=
  raise .badConfig (recordConfig k) { s with k := k, len := len, out := [], warnLog := [] }

/-- START(K, LEN): ignored in RUN (R62); refused with BAD_CONFIG if K is illegal (R61); else it begins a run (R60). A
DICT_CAP below K+2 is one R10 does not allow (assumption log 9). -/
def startCommand (k : BitVec 9) (len : Nat) (s : State) : Host.Outcome State Fault Refusal :=
  if s.phase = .run then .next s
  else if legalK k then
    if k.toNat + 2 ≤ s.dictCap then .next (startLegal k len s) else .refused .dictCapBelowBase
  else .next (startIllegal k len s)

/-- The host puts a byte of IN in place (R114); never in RUN (R115, U12; assumption log 8). -/
def writeInCommand (addr : Nat) (b : Byte) (s : State) : Host.Outcome State Fault Refusal :=
  if s.phase = .run then .refused .inWrittenDuringRun
  else .next { s with inMem := Memory.write s.inMem addr b }

end Sys2Proof.Machine
end

