-- ==== Sys2Proof/Machine/Fetch.lean ====
section
/-! DEFINITION. The block's STEP (rule R63), and placing one word of the opcode table where the next STEP reads its code
(assumption log 12). -/

namespace Sys2Proof.Machine

/-- STEP: extract one code and perform its class; a truncated one has raised its fault (R63). -/
def stepCode (s : State) : Host.Outcome State Fault Refusal :=
  match extract s with
  | .code i t => exec i t
  | .truncated t => .next t
  | .noFormat => .fault .noCodeFormat

/-- The block's own transition: a STEP exactly when STATE = RUN (R63); IDLE, DONE and FAULT hold (R26, R116; assumption
log 2). -/
def stepBlock (s : State) : Host.Outcome State Fault Refusal :=
  if s.phase = .run then stepCode s else .next s

/-- The dictionary of a run with K = 2 that has read only `LIT 0` and has come to `size` entries (R76, R92). -/
def tableDict (size : Nat) : List Phrase :=
  dictInit 2#9 ++ List.replicate (size - 4) [0#8, 0#8]

/-- The state in RUN whose next code is the word: the context of `tableCtx` (K, ORIG, the dictionary, and the previous
phrase a run with such a dictionary has), the word's bytes at addresses 1 and 2, and the position at bit 0 of byte 1. -/
def placeWord (nbits w : Nat) (s : State) : State :=
  { s with
    phase := .run
    k := 2#9, orig := 4#9
    dict := tableDict (tableSize (w % 2 ^ nbits))
    prev := some [0#8]
    inMem := Memory.writeBytes s.inMem 1 (tableBytes nbits w)
    len := 3, bp := 1, off := 0#3
    host := [] }

end Sys2Proof.Machine
end

