-- ==== Sys2Proof/Machine/Step.lean ====
section
/-! DEFINITION. One step: the host's turn if it has one, else the block's STEP (rule R63) where it is enabled. -/

namespace Sys2Proof.Machine

/-- One step of the machine: the host's next turn, or none (R58, R63; assumption log 1). -/
def step (s : State) : Host.Outcome State Fault Refusal :=
  match s.host with
  | [] => stepBlock s
  | .pass :: rest => stepBlock { s with host := rest }
  | .wait :: rest => .next { s with host := rest }
  | .writeIn a b :: rest => writeInCommand a b { s with host := rest }
  | .reset :: rest => .next (resetCommand { s with host := rest })
  | .start k len :: rest => startCommand k len { s with host := rest }

/-- `s` with a word of the opcode table as the code its next step reads (assumption log 12). -/
def State.withFetchWord (s : State) (nbits w : Nat) : State :=
  placeWord nbits w s

end Sys2Proof.Machine
end

