-- ==== Sys2Proof/Machine/Observe.lean ====
section
/-! DEFINITION. What the host may read (rules R29, R58), what the two event ports carry in a step (rules R25, R58, R106,
R108), and the result of a run as a value (rule R68). -/

namespace Sys2Proof.Machine

/-- The result of a run: `Ok(OUT)` or `Error(ERR)`, with the warnings (R68). -/
inductive RunResult where
  | ok (out : List Byte) (warns : List WarnRec)
  | error (e : ErrCode) (warns : List WarnRec)
  deriving DecidableEq, Repr

/-- The result of a run that is over; none before (R65, R68). -/
def State.result (s : State) : Option RunResult :=
  match s.phase with
  | .done => some (.ok s.out s.warnLog)
  | .fault => some (.error s.err s.warnLog)
  | .idle => none
  | .run => none

/-- The level and register ports the host reads (R58), each absent where R29 gives the host no right to read it. -/
structure HostView where
  stateNum : BitVec 2
  done : Bool
  fault : Bool
  out : Option (List Byte)
  outCount : Option Nat
  err : Option (BitVec 3)
  errInfo : Option ErrInfo
  warnings : Option (List WarnRec)
  warnCount : Nat
  mcs : Byte
  deriving DecidableEq, Repr

/-- What the host may read: STATE; OUT, OUT_COUNT and the warnings when DONE; ERR, ERR_INFO and the warnings when FAULT,
"and not OUT as a result"; WARN_COUNT and MCS (R29, R58, R105). -/
def State.hostView (s : State) : HostView where
  stateNum := s.phase.num
  done := s.doneLine
  fault := s.faultLine
  out := if s.phase = .done then some s.out else none
  outCount := if s.phase = .done then some s.outCount else none
  err := if s.phase = .fault then some s.err.num else none
  errInfo := if s.phase = .fault then some s.errInfo else none
  warnings := if s.phase = .done ∨ s.phase = .fault then some s.warnLog else none
  warnCount := s.warnCount
  mcs := s.mcs

/-- The ports of R58 that carry events, in one step: OUT, one index per transfer, and WARN, one event per warning with the
record of R28. -/
structure PortEvents where
  out : List Byte
  warn : List WarnRec
  deriving DecidableEq, Repr

/-- The events of the step that leaves `t` from `s`, in order. OUT's are what `emit` adds to OUT, "the history of
transfers" (R25); WARN's are what `warn` adds to WARN_LOG, one "pulse per warning" (R106, R108), in RUN as in any STATE
(assumption log 21). A step that empties OUT and WARN_LOG (R59 to R61) has none. -/
def portEvents (s t : State) : PortEvents where
  out := t.out.drop s.out.length
  warn := t.warnLog.drop s.warnLog.length

end Sys2Proof.Machine
end

