-- ==== Sys2Proof/Machine/WholeRun.lean ====
section
/-! DEFINITION. The whole run as one function, written from rule R100 alone: bit sums instead of a window, no registers, no
primitives. "If this function and an operation rule ever disagree, the operation rule governs" (R100): the machine
above is the model, this function is what a statement compares it with. -/

namespace Sys2Proof.Machine

/-- bit(IN, m): bit (m mod 8) of IN[m div 8] (R100). -/
def bufferBit (mem : List Host.Cell) (m : Nat) : Bool :=
  (Memory.read mem (m / 8)).getLsbD (m % 8)

/-- sum for i in [0, w) of bit(IN, start + i) * 2^i (R100). -/
def bufferSum (mem : List Host.Cell) (start : Nat) : Nat → Nat
  | 0 => 0
  | w + 1 => bufferSum mem start w + (bufferBit mem (start + w)).toNat * 2 ^ w

/-- The locals of R100's function. -/
structure WholeState where
  dict : List Phrase
  prev : Option Phrase
  out : List Byte
  warnLog : List WarnRec
  bp : Nat
  off : Nat
  n : Nat
  deriving DecidableEq, Repr

/-- One turn of R100's loop: it goes on or it returns. -/
inductive WholeNext where
  | more (w : WholeState)
  | done (r : RunResult)
  deriving DecidableEq, Repr

/-- The branch of R100 for a known code. -/
def wholeKnown (k cap : Nat) (p : Phrase) (v : WholeState) : WholeNext :=
  match v.prev with
  | none => .more { v with out := v.out ++ p, prev := some p }
  | some q =>
    if q ++ p.take 1 ∈ v.dict.take (k + 2) then .more { v with out := v.out ++ p, prev := some p }
    else if v.dict.length = cap then .done (.error .dictFull v.warnLog)
    else .more { v with out := v.out ++ p, dict := v.dict ++ [q ++ p.take 1], prev := some p }

/-- The branch of R100 for a code at or above SIZE, the warning recorded. -/
def wholeAbsent (cap : Nat) (v : WholeState) : WholeNext :=
  match v.prev with
  | none => .done (.error .noPrefix v.warnLog)
  | some q =>
    if v.dict.length = cap then .done (.error .dictFull v.warnLog)
    else .more
      { v with out := v.out ++ (q ++ q.take 1), dict := v.dict ++ [q ++ q.take 1], prev := some (q ++ q.take 1) }

/-- What R100 does with the value of a code, the position already advanced. -/
def wholeCode (k cap idx : Nat) (v : WholeState) : WholeNext :=
  if idx = k then .more { v with dict := v.dict.take (k + 2), prev := none }
  else if idx = k + 1 then .done (.ok v.out v.warnLog)
  else if idx < v.dict.length then wholeKnown k cap (v.dict.getD idx []) v
  else if v.dict.length < idx then
    wholeAbsent cap { v with
      warnLog := v.warnLog ++
        [{ kind := .dictCorrupt, code := BitVec.ofNat 16 idx, size := v.dict.length, ncodes := v.n }] }
  else wholeAbsent cap v

/-- One turn of R100's loop. -/
def wholeTurn (k cap len : Nat) (mem : List Host.Cell) (v : WholeState) : WholeNext :=
  let w := codeWidth v.dict.length
  if 8 * len < 8 * v.bp + v.off + w then .done (.error .truncatedLzw v.warnLog)
  else
    wholeCode k cap (bufferSum mem (8 * v.bp + v.off) w)
      { v with bp := v.bp + (v.off + w) / 8, off := (v.off + w) % 8, n := v.n + 1 }

/-- R100's loop, for at most the given number of turns; none if they do not suffice. -/
def wholeLoop (k cap len : Nat) (mem : List Host.Cell) : Nat → WholeState → Option RunResult
  | 0, _ => none
  | turns + 1, v =>
    match wholeTurn k cap len mem v with
    | .more v' => wholeLoop k cap len mem turns v'
    | .done r => some r

/-- The greatest number of STEPs of a run: 4 * max(LEN - 1, 0) + 1 (R66). -/
def stepBound (len : Nat) : Nat :=
  4 * (len - 1) + 1

/-- decode(K, IN, LEN, DICT_CAP) (R100). -/
def decodeWhole (k : BitVec 9) (cap len : Nat) (mem : List Host.Cell) : Option RunResult :=
  wholeLoop k.toNat cap len mem (stepBound len)
    { dict := dictInit k, prev := none, out := [], warnLog := [], bp := 1, off := 0, n := 0 }

end Sys2Proof.Machine
end

