-- ==== Sys2Proof/WellFormed.lean ====
section
/-! DEFINITION. Which codes can be written where: the conditions of the classes (rule R53), and that the value fits the
width (rules R48, R56). -/

namespace Sys2Proof

/-- The condition of the code's class (R53). -/
def Instr.inClass (ctx : CodeCtx) : Instr → Bool
  | .clr => true
  | .eoi => true
  | .lit n => decide (n.toNat < ctx.k.toNat)
  | .ref c => decide (ctx.k.toNat + 2 ≤ c.toNat ∧ c.toNat < ctx.size)
  | .imp => true
  | .byd c => decide (ctx.size < c.toNat)

/-- The code's value fits the width the context gives: it is "in [0, 2^w - 1]" (R48). -/
def Instr.fits (ctx : CodeCtx) (i : Instr) : Bool :=
  decide (codeIdx ctx i < 2 ^ codeWidth ctx.size)

/-- A context a run can have: K+2 <= SIZE, and a width the format has (R48, R72, R85). -/
def CodeCtx.wellFormed (ctx : CodeCtx) : Bool :=
  decide (ctx.k.toNat + 2 ≤ ctx.size) && widthOk (codeWidth ctx.size)

/-- The code can be written in the context and is of its class there. -/
def Instr.wellFormed (ctx : CodeCtx) (i : Instr) : Bool :=
  i.inClass ctx && i.fits ctx

end Sys2Proof
end

