-- ==== Sys2Proof/Safety.lean ====
section
/-! DEFINITION. What holds of the block in every state a run reaches (rules R20, R27, R66, R72, R85, R86, R87, R93, R97,
R98), and the terms statements use. -/

namespace Sys2Proof.Safety

open Sys2Proof.Machine

/-- Every index of the phrase is below K (R86). -/
abbrev BelowK (k : BitVec 9) (p : Phrase) : Prop :=
  ∀ x ∈ p, x.toNat < k.toNat

/-- What holds of the dictionary and the previous phrase while a decode is in progress. -/
structure DictInv (s : State) : Prop where
  /-- K is legal, since START refuses any other (R8, R61). -/
  kLegal : legalK s.k = true
  /-- ORIG = K+2 (R23). -/
  origEq : s.orig.toNat = s.k.toNat + 2
  /-- The entries 0 .. K+1 are DICT_INIT's; so ORIG <= SIZE (R77, R85). -/
  base : s.dict.take (s.k.toNat + 2) = dictInit s.k
  /-- SIZE <= DICT_CAP (R85). -/
  sizeLe : s.size ≤ s.dictCap
  /-- A learned entry c has at least 2 indices, each below K, and at most c - K of them (R86, R87). -/
  learned : ∀ c p, s.k.toNat + 2 ≤ c → s.dict[c]? = some p →
    2 ≤ p.length ∧ p.length ≤ c - s.k.toNat ∧ BelowK s.k p
  /-- PREV, when it exists, is a non-empty phrase of the dictionary (R88, R97). -/
  prevOk : ∀ p, s.prev = some p → p ∈ s.dict ∧ p ≠ []
  /-- A dictionary that has learned something has a previous phrase (R93). -/
  prevOfLearned : s.k.toNat + 2 < s.size → s.prev ≠ none

/-- What holds while a decode is in progress: the dictionary's part, and that the codes read lie inside the buffer. -/
structure RunInv (s : State) : Prop extends DictInv s where
  /-- The first code starts at byte 1 and the position never moves backward (R17). -/
  bpPos : 1 ≤ s.bp
  /-- Each code read took at least 2 bits (R66). -/
  codesLe : 2 * s.ncodes ≤ 8 * (s.bp - 1) + s.off.toNat
  /-- The codes read lie inside the buffer (R75). -/
  posLe : 8 * (s.bp - 1) + s.off.toNat ≤ 8 * (s.len - 1)

/-- What holds of the block in every state. -/
structure Inv (s : State) : Prop where
  /-- IN is in its canonical form. -/
  memWf : Memory.wf s.inMem = true
  /-- DICT_CAP <= 65536 (R10, R72). -/
  capMax : s.dictCap ≤ Config.dictCapMax
  /-- Every index in OUT is below K (R98). -/
  outBelowK : BelowK s.k s.out
  /-- ERR says NONE exactly outside FAULT (R27, R101). -/
  errPhase : s.err = .none ↔ s.phase ≠ .fault
  /-- While a decode is in progress, more holds. -/
  inRun : s.phase = .run → RunInv s

/-- What `raise` leaves (R104): ERR, STATE <- FAULT, ERR_INFO with BP, OFF, SIZE and NCODES as they are at the fault
(R27), and nothing else of the spec's. -/
structure Faulted (e : ErrCode) (s t : State) : Prop where
  frame : t = { s with err := e, phase := .fault, errInfo := t.errInfo, free := s.free + 1 }
  infoBp : t.errInfo.bp = s.bp
  infoOff : t.errInfo.off = s.off
  infoSize : t.errInfo.size = s.size
  infoNcodes : t.errInfo.ncodes = s.ncodes

/-- The same for a fault raised after a code was extracted: ERR_INFO records CODE too (R27, R101). -/
structure FaultedAtCode (e : ErrCode) (s t : State) : Prop extends Faulted e s t where
  infoCode : t.errInfo.code = s.code

/-- The turn is the block's own: the host issues nothing and the consumer is ready. -/
abbrev BlockTurn (s : State) : Prop :=
  s.host = [] ∨ ∃ rest, s.host = .pass :: rest

/-- The turn is one of the two commands (R58). -/
abbrev CommandTurn (s : State) : Prop :=
  (∃ rest, s.host = .reset :: rest) ∨ ∃ k len rest, s.host = .start k len :: rest

/-- The host issues nothing from here on and the consumer is ready. -/
abbrev Quiet (s : State) : Prop :=
  s.host = []

/-- A run is over: DONE or FAULT (R65). -/
abbrev Over (s : State) : Prop :=
  s.phase = .done ∨ s.phase = .fault

/-- The two buffers agree on every byte that a code can come from: addresses 1 .. LEN-1 (R15, R34, R38). -/
abbrev SameCodes (m m' : List Host.Cell) (len : Nat) : Prop :=
  ∀ a, 1 ≤ a → a < len → Memory.read m a = Memory.read m' a

/-- The two buffers agree on the bits with numbers from `start` to before `stop`, bit m being bit (m mod 8) of byte m div 8
(00_scope.md section 5). -/
abbrev SameBits (m m' : List Host.Cell) (start stop : Nat) : Prop :=
  ∀ b, start ≤ b → b < stop → bufferBit m b = bufferBit m' b

/-- The table of R50: SIZE from, SIZE to, clog2(SIZE), W(SIZE), the largest code value. -/
def widthRows : List (Nat × Nat × Nat × Nat × Nat) :=
  [(4, 4, 2, 2, 3), (5, 8, 3, 3, 7), (9, 16, 4, 4, 15), (17, 32, 5, 5, 31), (33, 64, 6, 6, 63), (65, 128, 7, 7, 127),
    (129, 256, 8, 8, 255), (257, 512, 9, 9, 511)] ++
  [(513, 1024, 10, 10, 1023), (1025, 2048, 11, 11, 2047), (2049, 4096, 12, 12, 4095), (4097, 8192, 13, 12, 4095),
    (8193, 16384, 14, 14, 16383), (16385, 32768, 15, 15, 32767), (32769, 65536, 16, 16, 65535)]

/-- The table of R51: K, the first width W(K+2), the SIZE at which the width becomes one more. -/
def firstWidthRows : List (BitVec 9 × Nat × Nat) :=
  [(2#9, 2, 5), (4#9, 3, 9), (8#9, 4, 17), (16#9, 5, 33), (32#9, 6, 65), (64#9, 7, 129), (128#9, 8, 257), (256#9, 9, 513)]

end Sys2Proof.Safety
end

