-- ==== Sys2Proof/Certificates/Slice0/Obligations.lean ====
section
/-! DEFINITION. The statements for the provers, from the numbered rules of spec/. -/

open Sys2Proof Sys2Proof.Machine Sys2Proof.Safety

/-! ## The width of a code (R50, R51, R70, R71, R72, R74) -/

/-- R70: clog2(n) is the least c with 2^c >= n; an exact power of two gives its own exponent; the rule's examples. -/
def Obligations.ClogIsLeastExponent : Prop :=
  (∀ n c : Nat, 1 ≤ n → (clog2 n ≤ c ↔ n ≤ 2 ^ c)) ∧
    (∀ c : Nat, clog2 (2 ^ c) = c) ∧
    clog2 1 = 0 ∧ clog2 2 = 1 ∧ clog2 3 = 2 ∧ clog2 4 = 2 ∧ clog2 5 = 3 ∧ clog2 512 = 9 ∧ clog2 513 = 10 ∧
    clog2 258 = 9

/-- R71: W(n) is clog2(n) but for 13, which is replaced by 12, for exactly the sizes 4097 to 8192; 13 is never a width. -/
def Obligations.WidthClampsThirteen : Prop :=
  ∀ n : Nat, 1 ≤ n →
    (clog2 n = 13 → codeWidth n = 12) ∧ (clog2 n ≠ 13 → codeWidth n = clog2 n) ∧ codeWidth n ≠ 13 ∧
      (clog2 n = 13 ↔ 4097 ≤ n ∧ n ≤ 8192)

/-- R50: clog2, the width and the largest code value of every dictionary size from 4 to 65536. -/
def Obligations.WidthOfEverySize : Prop :=
  (∀ lo hi c w largest, (lo, hi, c, w, largest) ∈ widthRows → ∀ n : Nat, lo ≤ n → n ≤ hi →
      clog2 n = c ∧ codeWidth n = w ∧ largest = 2 ^ w - 1) ∧
    ∀ n : Nat, 4 ≤ n → n ≤ 65536 → ∃ lo hi c w largest, (lo, hi, c, w, largest) ∈ widthRows ∧ lo ≤ n ∧ n ≤ hi

/-- R51: for each legal K the first width is the table's W(K+2), the values K, K+1 and those below K are CLR, EOI and LIT
and fit it, and the width becomes one more exactly when SIZE reaches the table's value. -/
def Obligations.FirstWidthOfEveryK : Prop :=
  (∀ k : BitVec 9, legalK k = true ↔ ∃ w n, (k, w, n) ∈ firstWidthRows) ∧
    ∀ k w n, (k, w, n) ∈ firstWidthRows →
      codeWidth (k.toNat + 2) = w ∧ k.toNat + 1 < 2 ^ w ∧
        (∀ m : Nat, k.toNat + 2 ≤ m → m < n → codeWidth m = w) ∧ codeWidth n = w + 1 ∧
        ∀ idx : Code, (idx.toNat = k.toNat → classify { k := k, size := k.toNat + 2 } idx = .clr) ∧
          (idx.toNat = k.toNat + 1 → classify { k := k, size := k.toNat + 2 } idx = .eoi) ∧
          (idx.toNat < k.toNat → classify { k := k, size := k.toNat + 2 } idx = .lit idx)

/-- R72: between sizes 4 and 65536 the width is 2 to 16, so a code lies inside the 3-byte window, touches 1 to 3 bytes
and consumes 0 to 2; at size 65537 and offset 7 it would consume 3. -/
def Obligations.CodeLiesInWindow : Prop :=
  (∀ (n : Nat) (off : BitVec 3), 4 ≤ n → n ≤ 65536 →
      2 ≤ codeWidth n ∧ codeWidth n ≤ 16 ∧ off.toNat + codeWidth n ≤ 23 ∧
        1 ≤ codeNeed off (codeWidth n) ∧ codeNeed off (codeWidth n) ≤ 3 ∧ codeAdv off (codeWidth n) ≤ 2) ∧
    codeWidth 65537 = 17 ∧ codeAdv 7#3 (codeWidth 65537) = 3

/-- R74: bytes touched, bytes consumed and the new offset, by the sum OFF + w. -/
def Obligations.BytesTouchedAndConsumed : Prop :=
  ∀ (off : BitVec 3) (w : Nat), 2 ≤ w → w ≤ 16 →
    (off.toNat + w ≤ 7 → codeNeed off w = 1 ∧ codeAdv off w = 0 ∧ (codeNextOff off w).toNat = off.toNat + w) ∧
      (off.toNat + w = 8 → codeNeed off w = 1 ∧ codeAdv off w = 1 ∧ (codeNextOff off w).toNat = 0) ∧
      (9 ≤ off.toNat + w → off.toNat + w ≤ 15 →
        codeNeed off w = 2 ∧ codeAdv off w = 1 ∧ (codeNextOff off w).toNat = off.toNat + w - 8) ∧
      (off.toNat + w = 16 → codeNeed off w = 2 ∧ codeAdv off w = 2 ∧ (codeNextOff off w).toNat = 0) ∧
      (17 ≤ off.toNat + w →
        codeNeed off w = 3 ∧ codeAdv off w = 2 ∧ (codeNextOff off w).toNat = off.toNat + w - 16) ∧
      2 ≤ off.toNat + w ∧ off.toNat + w ≤ 23

/-! ## Extraction (R35, R36, R38, R52, R73, R75) -/

/-- R18: WIN is IN[BP], IN[BP+1], IN[BP+2], the first one lowest, with 0x00 for a byte at an address >= LEN. -/
def Obligations.WindowIsBufferAtBp : Prop :=
  ∀ s : State, ∃ b0 b1 b2 : Byte,
    s.win.toNat = b0.toNat + 256 * b1.toNat + 65536 * b2.toNat ∧
      (s.bp < s.len → b0 = Memory.read s.inMem s.bp) ∧ (s.len ≤ s.bp → b0 = 0#8) ∧
      (s.bp + 1 < s.len → b1 = Memory.read s.inMem (s.bp + 1)) ∧ (s.len ≤ s.bp + 1 → b1 = 0#8) ∧
      (s.bp + 2 < s.len → b2 = Memory.read s.inMem (s.bp + 2)) ∧ (s.len ≤ s.bp + 2 → b2 = 0#8)

/-- R73 with R17: a code that EXTRACT cuts is the w bits of IN from bit 8*BP + OFF on, the first the least significant,
zero-extended to 16; the position moves by w bits; WIDTH and NCODES are written; the class is that of the value. -/
def Obligations.CodeBitsAreLsbFirst : Prop :=
  ∀ (s t : State) (i : Instr), extract s = .code i t →
    (∀ b : Nat, b < codeWidth s.size → t.code.getLsbD b = s.inBit (8 * s.bp + s.off.toNat + b)) ∧
      (∀ b : Nat, codeWidth s.size ≤ b → t.code.getLsbD b = false) ∧
      8 * t.bp + t.off.toNat = 8 * s.bp + s.off.toNat + codeWidth s.size ∧
      t.width.toNat = codeWidth s.size ∧ t.ncodes = s.ncodes + 1 ∧ i = classify s.ctx t.code

/-- R73, R52: when every byte that holds a bit of the code exists, EXTRACT answers idx = (WIN >> OFF) & (2^w - 1), which is
the sum of the bits from 8*BP + OFF on, and writes BP, OFF, WIDTH, CODE and NCODES, and nothing else; else it raises
TruncatedLzw and performs none of that. -/
def Obligations.ExtractReadsOneCode : Prop :=
  ∀ s : State, 2 ≤ codeWidth s.size → codeWidth s.size ≤ 16 →
    (s.bp + (s.off.toNat + codeWidth s.size + 7) / 8 ≤ s.len →
      ∃ idx : Code,
        idx = ((s.memWindow s.bp >>> s.off.toNat) &&& BitVec.ofNat 24 (2 ^ codeWidth s.size - 1)).setWidth 16 ∧
          (∀ b : Nat, b < codeWidth s.size → idx.getLsbD b = s.inBit (8 * s.bp + s.off.toNat + b)) ∧
          idx.toNat < 2 ^ codeWidth s.size ∧
          extract s = .code (classify s.ctx idx)
            { s with
              bp := s.bp + (s.off.toNat + codeWidth s.size) / 8
              off := BitVec.ofNat 3 ((s.off.toNat + codeWidth s.size) % 8)
              width := BitVec.ofNat 5 (codeWidth s.size)
              code := idx
              ncodes := s.ncodes + 1 }) ∧
      (s.len < s.bp + (s.off.toNat + codeWidth s.size + 7) / 8 →
        ∃ t, extract s = .truncated t ∧ Faulted .truncatedLzw s t)

/-- R75: EXTRACT raises TruncatedLzw exactly when BP + need > LEN, which is when 8*BP + OFF + w > 8*LEN; ERR_INFO records
BP, OFF, SIZE, NCODES, the position is left at the start of the code, and nothing else of the spec's changes. -/
def Obligations.ExhaustionIsExact : Prop :=
  ∀ s : State, 2 ≤ codeWidth s.size → codeWidth s.size ≤ 16 →
    ((∃ t, extract s = .truncated t) ↔ s.len < s.bp + (s.off.toNat + codeWidth s.size + 7) / 8) ∧
      ((∃ t, extract s = .truncated t) ↔ 8 * s.len < 8 * s.bp + s.off.toNat + codeWidth s.size) ∧
      ∀ t, extract s = .truncated t → Faulted .truncatedLzw s t

/-! ## Classes and encoding (R48, R53, R54, R56, R57) -/

/-- R53: where K+2 <= SIZE the six classes are picked by the conditions of the table, one for every value, with the value
as the operand. -/
def Obligations.ClassTestsInOrder : Prop :=
  ∀ (ctx : CodeCtx) (idx : Code), ctx.k.toNat + 2 ≤ ctx.size →
    (classify ctx idx = .clr ↔ idx.toNat = ctx.k.toNat) ∧
      (classify ctx idx = .eoi ↔ idx.toNat = ctx.k.toNat + 1) ∧
      (∀ n, classify ctx idx = .lit n ↔ n = idx ∧ idx.toNat < ctx.k.toNat) ∧
      (∀ c, classify ctx idx = .ref c ↔ c = idx ∧ ctx.k.toNat + 2 ≤ idx.toNat ∧ idx.toNat < ctx.size) ∧
      (classify ctx idx = .imp ↔ idx.toNat = ctx.size) ∧
      (∀ c, classify ctx idx = .byd c ↔ c = idx ∧ ctx.size < idx.toNat)

/-- R54: at every size a run can have, the values K and K+1 fit the width and are the Clear Code and End-of-Information. -/
def Obligations.ReservedCodesAtEveryWidth : Prop :=
  ∀ (k : BitVec 9) (size : Nat), legalK k = true → k.toNat + 2 ≤ size → size ≤ 65536 →
    k.toNat + 1 < 2 ^ codeWidth size ∧
      ∀ idx : Code, (idx.toNat = k.toNat → classify { k := k, size := size } idx = .clr) ∧
        (idx.toNat = k.toNat + 1 → classify { k := k, size := size } idx = .eoi)

/-- R56: (a) at a size that is an exact power of two 2^w and (b) at every size from 4097 to 8192 no value of the width is
IMP or BYD, and in (b) no learned entry from 4096 on can be referred to; (c) at every other size IMP fits the width,
and BYD does when SIZE < 2^w - 1. -/
def Obligations.AbsentClassesUnwritable : Prop :=
  ∀ ctx : CodeCtx, ctx.k.toNat + 2 ≤ ctx.size → 4 ≤ ctx.size → ctx.size ≤ 65536 →
    ((ctx.size = 2 ^ codeWidth ctx.size ∨ (4097 ≤ ctx.size ∧ ctx.size ≤ 8192)) →
        ∀ idx : Code, idx.toNat < 2 ^ codeWidth ctx.size →
          classify ctx idx ≠ .imp ∧ ∀ c, classify ctx idx ≠ .byd c) ∧
      (4097 ≤ ctx.size → ctx.size ≤ 8192 →
        codeWidth ctx.size = 12 ∧ ∀ (idx c : Code), idx.toNat < 2 ^ codeWidth ctx.size →
          classify ctx idx = .ref c → c.toNat ≤ 4095) ∧
      (ctx.size ≠ 2 ^ codeWidth ctx.size → ¬ (4097 ≤ ctx.size ∧ ctx.size ≤ 8192) →
        2 ^ (codeWidth ctx.size - 1) < ctx.size ∧ ctx.size < 2 ^ codeWidth ctx.size ∧
          Instr.wellFormed ctx .imp = true ∧
          (ctx.size < 2 ^ codeWidth ctx.size - 1 →
            ∃ c : Code, Instr.wellFormed ctx (.byd c) = true))

/-- Decode and encode agree (R35, R48, R53): a well-formed code's bits, at any bit offset, after any bits and before any
bits, decode to that code, with its value and its width. -/
def Obligations.DecodeOfEncode : Prop :=
  ∀ (ctx : CodeCtx) (i : Instr) (off : BitVec 3) (before after : List Bool),
    ctx.wellFormed = true → i.wellFormed ctx = true → before.length = off.toNat →
      decodeBytes ctx off (packBits (before ++ encode ctx i ++ after)) =
        .code i (BitVec.ofNat 16 (codeIdx ctx i)) (codeWidth ctx.size)

/-- The other direction: what the decoder reads is well-formed there, and its encoding is the window's bits from OFF on. -/
def Obligations.EncodeOfDecode : Prop :=
  ∀ (ctx : CodeCtx) (off : BitVec 3) (avail : Nat) (win : BitVec 24) (i : Instr) (idx : Code) (w : Nat),
    ctx.k.toNat + 2 ≤ ctx.size → decodeWindow ctx off avail win = .code i idx w →
      w = codeWidth ctx.size ∧ i.wellFormed ctx = true ∧ idx.toNat = codeIdx ctx i ∧
        encode ctx i = (List.range w).map fun b => win.getLsbD (off.toNat + b)

/-- A few words written out from the spec's encodings (R35, R52, R53; vectors V-C and program P1): 0x8C 0xAD is, from bit
0 on, 4/3 CLR, 1/3 LIT 1 and 6/3 IMP; then 6/3 REF 6; 0x07 at K = 4, SIZE = 6 is BYD 7; 0x03 at K = 2, SIZE = 4 is EOI. -/
def Obligations.WordsOfTheSpec : Prop :=
  decodeBytes { k := 4#9, size := 6 } 0#3 [0x8C#8, 0xAD#8, 0x2C#8] = .code .clr 4#16 3 ∧
    decodeBytes { k := 4#9, size := 6 } 3#3 [0x8C#8, 0xAD#8, 0x2C#8] = .code (.lit 1#16) 1#16 3 ∧
    decodeBytes { k := 4#9, size := 6 } 6#3 [0x8C#8, 0xAD#8, 0x2C#8] = .code .imp 6#16 3 ∧
    decodeBytes { k := 4#9, size := 7 } 1#3 [0xAD#8, 0x2C#8] = .code (.ref 6#16) 6#16 3 ∧
    decodeBytes { k := 4#9, size := 6 } 0#3 [0x07#8] = .code (.byd 7#16) 7#16 3 ∧
    decodeBytes { k := 2#9, size := 4 } 0#3 [0x03#8] = .code .eoi 3#16 2

/-! ## One step (R58, R63, R116) -/

/-- R63: when the bytes at (BP, OFF) decode to the code i, a step in RUN is exec of i at the state EXTRACT leaves. -/
def Obligations.StepRunsDecodedCode : Prop :=
  ∀ (s : State) (i : Instr) (idx : Code) (w : Nat), s.phase = .run →
    decodeWindow s.ctx s.off (s.len - s.bp) s.win = .code i idx w →
      (s.host = [] → step s = exec i (advance idx w s)) ∧
        ∀ rest, s.host = .pass :: rest → step s = exec i (advance idx w { s with host := rest })

/-- R26, R58, R116: outside RUN no STEP is enabled and every element holds; a turn in which the consumer is not ready
changes nothing (the turns of the host are the model's own, assumption log 1 and 2). -/
def Obligations.QuiescentBlockHolds : Prop :=
  ∀ s : State,
    (s.phase ≠ .run → s.host = [] → step s = .next s) ∧
      (∀ rest, s.phase ≠ .run → s.host = .pass :: rest → step s = .next { s with host := rest }) ∧
      ∀ rest, s.host = .wait :: rest → step s = .next { s with host := rest }

/-- A word of the opcode table placed by `withFetchWord` is what the next step runs (the context is the model's choice,
assumption log 12). -/
def Obligations.PlacedWordRuns : Prop :=
  ∀ (s : State) (nbits w : Nat) (i : Instr), Memory.wf s.inMem = true → decodeTableWord nbits w = some i →
    ∃ (idx : Code) (width : Nat), idx.toNat = w % 2 ^ nbits ∧ width = codeWidth (tableSize (w % 2 ^ nbits)) ∧
      step (s.withFetchWord nbits w) = exec i (advance idx width (s.withFetchWord nbits w))

/-! ## Reset and the commands (R31, R59 to R62, R114) -/

/-- R59: RESET, in every state, brings STATE to IDLE, ERR to 0, and empties the warnings and OUT; IN and DICT_CAP are no
elements of the block and stay. -/
def Obligations.ResetCommandClears : Prop :=
  ∀ (s : State) (rest : List HostTurn), s.host = .reset :: rest →
    ∃ t, step s = .next t ∧ t.phase = .idle ∧ t.err = .none ∧ t.warnLog = [] ∧ t.warnCount = 0 ∧ t.out = [] ∧
      t.outCount = 0 ∧ t.inMem = s.inMem ∧ t.dictCap = s.dictCap ∧ t.host = rest

/-- R31: the values the spec states for reset. (The values of the other elements are the model's, assumption log 3, and
are not claimed.) -/
def Obligations.ResetState : Prop :=
  State.reset.phase = .idle ∧ State.reset.err = .none ∧ State.reset.warnCount = 0 ∧ State.reset.warnLog = [] ∧
    State.reset.out = [] ∧ State.reset.outCount = 0 ∧ State.reset.dictCap = 65536

/-- R60: START with a legal K outside RUN. -/
def Obligations.StartBeginsRun : Prop :=
  ∀ (s : State) (k : BitVec 9) (len : Nat) (rest : List HostTurn),
    s.host = .start k len :: rest → s.phase ≠ .run → legalK k = true → k.toNat + 2 ≤ s.dictCap →
    ∃ t, step s = .next t ∧
      t.k = k ∧ t.len = len ∧ t.orig.toNat = k.toNat + 2 ∧ (1 ≤ len → t.mcs = Memory.read s.inMem 0) ∧
      t.dict = dictInit k ∧ t.size = k.toNat + 2 ∧ t.prevValid = false ∧
      t.bp = 1 ∧ t.off = 0#3 ∧ t.ncodes = 0 ∧ t.out = [] ∧ t.outCount = 0 ∧
      t.err = .none ∧ t.warnCount = 0 ∧ t.warnLog = [] ∧ t.phase = .run ∧
      t.inMem = s.inMem ∧ t.dictCap = s.dictCap ∧ t.host = rest ∧
      (len ≤ 1 → ∃ u, stepBlock t = .next u ∧ Faulted .truncatedLzw t u)

/-- R61: START with an illegal K outside RUN: K and LEN, BAD_CONFIG with K recorded, OUT and the warnings emptied, FAULT.
That every other element of the spec's stays is the model's reading, assumption log 20 (DEDUCED: R61's pseudocode lists
no more; the after-START column of 10_state.md section 2 makes no exception for an illegal K). K has 9 bits, so 512 is
left out, assumption log 14. -/
def Obligations.StartRefusesIllegalK : Prop :=
  ∀ (s : State) (k : BitVec 9) (len : Nat) (rest : List HostTurn),
    s.host = .start k len :: rest → s.phase ≠ .run → legalK k = false →
    ∃ t, step s = .next t ∧ t.errInfo.k = k ∧
      t = { s with
        k := k, len := len, err := .badConfig, errInfo := t.errInfo, out := [], warnLog := []
        phase := .fault, host := rest, free := s.free + 1 } ∧
      t.outCount = 0 ∧ t.warnCount = 0

/-- START with a legal K at a DICT_CAP that R10 does not allow for it (K+2 > DICT_CAP) is refused: the refusal is the
model's, assumption log 9. -/
def Obligations.StartBelowCapacityRefused : Prop :=
  ∀ (s : State) (k : BitVec 9) (len : Nat) (rest : List HostTurn),
    s.host = .start k len :: rest → s.phase ≠ .run → legalK k = true → s.dictCap < k.toNat + 2 →
      step s = .refused .dictCapBelowBase

/-- R62: START while STATE = RUN changes no element. -/
def Obligations.StartIgnoredInRun : Prop :=
  ∀ (s : State) (k : BitVec 9) (len : Nat) (rest : List HostTurn),
    s.host = .start k len :: rest → s.phase = .run → step s = .next { s with host := rest }

/-- R24, R31, R113: a run inherits nothing: START gives the same state from any two states outside RUN with the same
buffer, capacity and turns to come (and the same free-value counter, the model's own). -/
def Obligations.StartInheritsNothing : Prop :=
  ∀ (s s' : State) (k : BitVec 9) (len : Nat) (rest : List HostTurn),
    s.host = .start k len :: rest → s'.host = .start k len :: rest → s.phase ≠ .run → s'.phase ≠ .run →
    legalK k = true → s.inMem = s'.inMem → s.dictCap = s'.dictCap → s.free = s'.free → step s = step s'

/-- R114, R115: outside RUN the host puts a byte of IN in place, which reads back, and no other byte and no element of
the block changes; in RUN the turn is refused (the refusal is the model's, assumption log 8). -/
def Obligations.HostPlacesOneByte : Prop :=
  ∀ (s : State) (a : Nat) (b : Byte) (rest : List HostTurn), s.host = .writeIn a b :: rest →
    (s.phase = .run → step s = .refused .inWrittenDuringRun) ∧
      (s.phase ≠ .run → Memory.wf s.inMem = true → ∃ t, step s = .next t ∧
        t = { s with host := rest, inMem := t.inMem } ∧ Memory.read t.inMem a = b ∧
        ∀ x, x ≠ a → Memory.read t.inMem x = Memory.read s.inMem x)

/-! ## The dictionary (R76 to R85) -/

/-- R76: DICT_INIT(K) is K singletons, then the two reserved entries, which hold []; K+2 entries. -/
def Obligations.DictInitLayout : Prop :=
  ∀ k : BitVec 9, (dictInit k).length = k.toNat + 2 ∧
    (∀ i : Nat, i < k.toNat → (dictInit k)[i]? = some [BitVec.ofNat 8 i]) ∧
    (dictInit k)[k.toNat]? = some [] ∧ (dictInit k)[k.toNat + 1]? = some []

/-- R77: in a run DictTruncate gives DICT_INIT(K) again, SIZE = ORIG = K+2, and changes nothing else; with SIZE already
ORIG it changes nothing. -/
def Obligations.TruncateRestoresInit : Prop :=
  ∀ s : State, DictInv s →
    dictTruncate s = { s with dict := dictInit s.k } ∧ (dictTruncate s).size = s.orig.toNat ∧
      s.orig.toNat = s.k.toNat + 2 ∧ (s.size = s.orig.toNat → dictTruncate s = s)

/-- R83: DictAppend raises DICT_FULL at SIZE = DICT_CAP and does not append; else p becomes entry number SIZE, every
other entry keeps its code, and the next width is W(SIZE + 1). -/
def Obligations.AppendTakesNextCode : Prop :=
  ∀ (p : Phrase) (s : State),
    (s.size = s.dictCap → ∃ t, dictAppend p s = .raised t ∧ FaultedAtCode .dictFull s t) ∧
      (s.size ≠ s.dictCap → ∃ t, dictAppend p s = .cont t ∧ t = { s with dict := s.dict ++ [p] } ∧
        t.dict[s.size]? = some p ∧ (∀ c, c < s.size → t.dict[c]? = s.dict[c]?) ∧ t.size = s.size + 1 ∧
        codeWidth t.ctx.size = codeWidth (s.size + 1))

/-- R82, R80: in a run the duplicate check over [0, ORIG) never finds the candidate, so LEARN always appends, whatever
the learned entries hold. -/
def Obligations.LearnAlwaysAppends : Prop :=
  ∀ (s : State) (q : Phrase) (x : Byte), DictInv s → s.prev = some q →
    s.baseHas (q ++ [x]) = false ∧ learn x s = dictAppend (q ++ [x]) s

/-- R85: K+2 = ORIG <= SIZE <= DICT_CAP in a run, and a step of the block changes SIZE by at most +1 except at a Clear
Code, which sets it to K+2. -/
def Obligations.SizeGrowsByAtMostOne : Prop :=
  ∀ s t : State, Inv s → s.phase = .run → BlockTurn s → step s = .next t →
    s.orig.toNat = s.k.toNat + 2 ∧ s.orig.toNat ≤ s.size ∧ s.size ≤ s.dictCap ∧ t.size ≤ t.dictCap ∧
      (t.size = s.size ∨ t.size = s.size + 1 ∨
        (t.size = s.k.toNat + 2 ∧
          ∃ idx w, decodeWindow s.ctx s.off (s.len - s.bp) s.win = .code .clr idx w))

/-! ## The six classes of code (R90 to R96) -/

/-- R90: CLR truncates the dictionary to K+2 entries, discards the previous phrase, emits nothing and changes nothing
else; the next code is read at W(K+2) bits; with SIZE = K+2 and no previous phrase it changes nothing. -/
def Obligations.ClearCodeResetsDictionary : Prop :=
  ∀ s : State, DictInv s →
    exec .clr s = .next { s with dict := dictInit s.k, prev := none } ∧
      (∀ t, exec .clr s = .next t → t.size = s.k.toNat + 2 ∧ t.prevValid = false ∧ t.out = s.out ∧
        codeWidth t.ctx.size = codeWidth (s.k.toNat + 2)) ∧
      (s.size = s.k.toNat + 2 → s.prev = none → exec .clr s = .next s)

/-- R91: EOI sets STATE to DONE and changes nothing else, in every state. -/
def Obligations.EndOfInformationEndsRun : Prop :=
  ∀ s : State, exec .eoi s = .next { s with phase := .done }

/-- R92: LIT n emits [n], learns PREV ++ [n] at code SIZE if there is a previous phrase, and PREV becomes [n]; the append
at SIZE = DICT_CAP is DICT_FULL, after the Emit. -/
def Obligations.LiteralEmitsAndLearns : Prop :=
  ∀ (s : State) (n : Code), DictInv s → n.toNat < s.k.toNat →
    (s.prev = none → exec (.lit n) s = .next { s with out := s.out ++ [n.setWidth 8], prev := some [n.setWidth 8] }) ∧
      (∀ q, s.prev = some q → s.size ≠ s.dictCap → exec (.lit n) s = .next
        { s with
          out := s.out ++ [n.setWidth 8]
          dict := s.dict ++ [q ++ [n.setWidth 8]]
          prev := some [n.setWidth 8] }) ∧
      (∀ q, s.prev = some q → s.size = s.dictCap → ∃ t, exec (.lit n) s = .next t ∧
        FaultedAtCode .dictFull { s with out := s.out ++ [n.setWidth 8] } t)

/-- R93: REF c emits DICT[c], learns PREV ++ [first(DICT[c])] at code SIZE, and PREV becomes DICT[c]; a REF always has a
previous phrase and a phrase of at least 2 indices; the append at SIZE = DICT_CAP is DICT_FULL, after the Emit. -/
def Obligations.ReferenceEmitsAndLearns : Prop :=
  ∀ (s : State) (c : Code), DictInv s → s.k.toNat + 2 ≤ c.toNat → c.toNat < s.size →
    ∃ q x xs, s.prev = some q ∧ s.dict[c.toNat]? = some (x :: xs) ∧ xs ≠ [] ∧
      (s.size ≠ s.dictCap → exec (.ref c) s = .next
        { s with
          out := s.out ++ (x :: xs)
          dict := s.dict ++ [q ++ [x]]
          prev := some (x :: xs) }) ∧
      (s.size = s.dictCap → ∃ t, exec (.ref c) s = .next t ∧
        FaultedAtCode .dictFull { s with out := s.out ++ (x :: xs) } t)

/-- R94: IMP with a previous phrase x :: xs emits and appends PREV ++ [x], unconditionally, and PREV becomes that phrase;
the append at SIZE = DICT_CAP is DICT_FULL, after the Emit. -/
def Obligations.ImpliedCodeSynthesizes : Prop :=
  ∀ (s : State) (x : Byte) (xs : Phrase), s.prev = some (x :: xs) →
    (s.size ≠ s.dictCap → exec .imp s = .next
      { s with
        out := s.out ++ (x :: xs ++ [x])
        dict := s.dict ++ [x :: xs ++ [x]]
        prev := some (x :: xs ++ [x]) }) ∧
      (s.size = s.dictCap → ∃ t, exec .imp s = .next t ∧
        FaultedAtCode .dictFull { s with out := s.out ++ (x :: xs ++ [x]) } t)

/-- R95: BYD c with a previous phrase records one warning (DICT_CORRUPT, c, SIZE, NCODES), then does as IMP: the phrase
is appended at SIZE, not at c. -/
def Obligations.BeyondCodeWarnsAndSynthesizes : Prop :=
  ∀ (s : State) (c : Code) (x : Byte) (xs : Phrase), s.size < c.toNat → s.prev = some (x :: xs) →
    (s.size ≠ s.dictCap → ∃ t, exec (.byd c) s = .next t ∧ t.dict[s.size]? = some (x :: xs ++ [x]) ∧
      t = { s with
        warnLog := s.warnLog ++ [{ kind := .dictCorrupt, code := c, size := s.size, ncodes := s.ncodes }]
        out := s.out ++ (x :: xs ++ [x])
        dict := s.dict ++ [x :: xs ++ [x]]
        prev := some (x :: xs ++ [x]) } ∧ t.warnCount = s.warnCount + 1) ∧
      (s.size = s.dictCap → ∃ t, exec (.byd c) s = .next t ∧
        FaultedAtCode .dictFull
          { s with
            warnLog := s.warnLog ++ [{ kind := .dictCorrupt, code := c, size := s.size, ncodes := s.ncodes }]
            out := s.out ++ (x :: xs ++ [x]) } t)

/-- R96: IMP or BYD with no previous phrase raises NO_PREFIX; nothing is emitted or appended; BYD has recorded its
warning. -/
def Obligations.AbsentCodeWithoutPrefixFaults : Prop :=
  ∀ s : State, s.prev = none →
    (∃ t, exec .imp s = .next t ∧ FaultedAtCode .noPrefix s t) ∧
      ∀ c : Code, s.size < c.toNat → ∃ t, exec (.byd c) s = .next t ∧
        FaultedAtCode .noPrefix
          { s with
            warnLog := s.warnLog ++ [{ kind := .dictCorrupt, code := c, size := s.size, ncodes := s.ncodes }] } t

/-- R95: "The value c itself is used for nothing but the warning record": what BYD c leaves, the warning log aside, is
what IMP leaves. -/
def Obligations.BeyondCodeValueOnlyWarns : Prop :=
  ∀ (s : State) (c : Code), s.size < c.toNat →
    (∀ t, exec .imp s = .next t → exec (.byd c) s = .next
      { t with
        warnLog := s.warnLog ++ [{ kind := .dictCorrupt, code := c, size := s.size, ncodes := s.ncodes }] }) ∧
      ∀ f, exec .imp s = .fault f → exec (.byd c) s = .fault f

/-! ## Frames: what a code leaves unchanged -/

/-- No code changes K, LEN, MCS, ORIG, DICT_CAP, what EXTRACT wrote (BP, OFF, WIDTH, CODE, NCODES), the host's turns, or
any byte of IN (R12, R17, R33, R104). -/
def Obligations.CodesLeaveInputAndPosition : Prop :=
  ∀ (i : Instr) (s t : State), exec i s = .next t →
    t.k = s.k ∧ t.len = s.len ∧ t.mcs = s.mcs ∧ t.orig = s.orig ∧ t.dictCap = s.dictCap ∧
      t.bp = s.bp ∧ t.off = s.off ∧ t.width = s.width ∧ t.code = s.code ∧ t.ncodes = s.ncodes ∧ t.host = s.host ∧
      t.inMem = s.inMem ∧ ∀ a, t.memByte a = s.memByte a

/-- CLR and EOI emit nothing, warn of nothing and raise nothing; CLR leaves STATE, and EOI the dictionary and the
previous phrase (R90, R91, R107). -/
def Obligations.ReservedCodesFrame : Prop :=
  ∀ s t : State,
    (exec .clr s = .next t → t.out = s.out ∧ t.warnLog = s.warnLog ∧ t.phase = s.phase ∧ t.err = s.err ∧
      t.errInfo = s.errInfo ∧ t.free = s.free) ∧
      (exec .eoi s = .next t → t.out = s.out ∧ t.warnLog = s.warnLog ∧ t.dict = s.dict ∧ t.prev = s.prev ∧
        t.err = s.err ∧ t.errInfo = s.errInfo ∧ t.free = s.free)

/-- LIT, REF, IMP and BYD keep every entry's code and phrase and all that OUT holds; LIT, REF and IMP record no warning,
BYD one; unless the code raised NO_PREFIX or DICT_FULL, STATE, ERR and ERR_INFO stay; where it did, the dictionary and
PREV stay (R22, R25, R92 to R96, R104). -/
def Obligations.EmittingCodesFrame : Prop :=
  ∀ (i : Instr) (s t : State), i ≠ .clr → i ≠ .eoi → exec i s = .next t →
    (∀ c, c < s.size → t.dict[c]? = s.dict[c]?) ∧ s.out <+: t.out ∧
      ((∀ c, i ≠ .byd c) → t.warnLog = s.warnLog) ∧
      (∀ c, i = .byd c →
        t.warnLog = s.warnLog ++ [{ kind := .dictCorrupt, code := c, size := s.size, ncodes := s.ncodes }]) ∧
      ((t.phase = s.phase ∧ t.err = s.err ∧ t.errInfo = s.errInfo ∧ t.free = s.free) ∨
        (t.phase = .fault ∧ (t.err = .noPrefix ∨ t.err = .dictFull) ∧ t.dict = s.dict ∧ t.prev = s.prev))

/-- R99: in a run, a code that raises nothing leaves the size and the previous-phrase flag that the assembler (R57)
reckons with. -/
def Obligations.NextContextAsTheTable : Prop :=
  ∀ (i : Instr) (s t : State), DictInv s → s.phase = .run → exec i s = .next t → t.phase ≠ .fault →
    nextCtx s.ctx s.prevValid i = (t.ctx, t.prevValid)

/-! ## Invariants (R20, R27, R66, R72, R86, R87, R97, R98) -/

/-- The invariant holds at reset. -/
def Obligations.ResetMeetsInvariant : Prop :=
  Inv State.reset

/-- Every step that answers a next state keeps the invariant: readable phrases are non-empty, their indices and those of
OUT are below K, a learned code's phrase has at most c - K indices, PREV is a non-empty phrase of the dictionary, ERR
is NONE exactly outside FAULT, the codes read lie inside the buffer, and IN keeps its canonical form. -/
def Obligations.StepKeepsInvariant : Prop :=
  ∀ s t : State, Inv s → step s = .next t → Inv t

/-- IN keeps its canonical form in every step, whatever else holds. -/
def Obligations.StepKeepsCanonicalInput : Prop :=
  ∀ s t : State, Memory.wf s.inMem = true → step s = .next t → Memory.wf t.inMem = true

/-- R117, R55: in a run no step stops: it answers a next state for every buffer; and in every state that meets the
invariant no step is one of the model's own faults. -/
def Obligations.EveryStreamIsAcceptable : Prop :=
  ∀ s : State, Inv s → (∀ f, step s ≠ .fault f) ∧ (BlockTurn s → ∃ t, step s = .next t)

/-- R120: one step of a run emits at most DICT_CAP - K indices. -/
def Obligations.StepOutputBounded : Prop :=
  ∀ s t : State, Inv s → s.phase = .run → BlockTurn s → step s = .next t →
    t.out.length ≤ s.out.length + (s.dictCap - s.k.toNat)

/-! ## Rules of the whole machine (R12, R17, R25, R64, R65, R102, R109) -/

/-- R17, R64: in a run the position moves forward by exactly the width of the code, or the step raises TRUNCATED_LZW and
the position stays. -/
def Obligations.PositionOnlyMovesForward : Prop :=
  ∀ s t : State, s.phase = .run → BlockTurn s → step s = .next t →
    8 * t.bp + t.off.toNat = 8 * s.bp + s.off.toNat + codeWidth s.size ∨
      (t.bp = s.bp ∧ t.off = s.off ∧ t.phase = .fault ∧ t.err = .truncatedLzw)

/-- R65: DONE is reached from RUN alone, by a code of class EOI, and such a code always reaches it. -/
def Obligations.OnlyEndOfInformationReachesDone : Prop :=
  ∀ s t : State, step s = .next t → s.phase ≠ .done →
    (t.phase = .done ↔ s.phase = .run ∧ BlockTurn s ∧
      ∃ idx w, decodeWindow s.ctx s.off (s.len - s.bp) s.win = .code .eoi idx w)

/-- R26, R109: in IDLE, DONE and FAULT only START and RESET change anything but the host's turns and the bytes of IN. -/
def Obligations.OnlyCommandsLeaveQuiescence : Prop :=
  ∀ s t : State, s.phase ≠ .run → step s = .next t → ¬ CommandTurn s →
    t = { s with host := s.host.tail, inMem := t.inMem }

/-- R102: in a run a step records at most one warning, and only for a code beyond the dictionary: (DICT_CORRUPT, idx,
SIZE, the code's ordinal). -/
def Obligations.WarningOnlyFromBeyond : Prop :=
  ∀ s t : State, s.phase = .run → BlockTurn s → step s = .next t →
    (t.warnLog = s.warnLog ∧
      ∀ c idx w, decodeWindow s.ctx s.off (s.len - s.bp) s.win ≠ .code (.byd c) idx w) ∨
      ∃ c w, decodeWindow s.ctx s.off (s.len - s.bp) s.win = .code (.byd c) c w ∧
        t.warnLog = s.warnLog ++ [{ kind := .dictCorrupt, code := c, size := s.size, ncodes := s.ncodes + 1 }]

/-- R25, R58, R89, R106, R108: but for the two commands, no step removes or reorders anything of OUT or WARN_LOG, and the
event ports carry exactly what it appends to them: OUT the indices in order, WARN one event per warning with its record.
A WARN event occurs in a step of a run whose code is beyond the dictionary and in no other step, whether or not the code
then raises a fault; the commands carry none. (That growth of the histories is the event is read from the rules,
assumption log 21.) -/
def Obligations.OutputOnlyAppended : Prop :=
  (∀ s t : State, ¬ CommandTurn s → step s = .next t →
    s.out <+: t.out ∧ t.out = s.out ++ (portEvents s t).out ∧ t.warnLog = s.warnLog ++ (portEvents s t).warn ∧
      t.warnCount = s.warnCount + (portEvents s t).warn.length) ∧
    (∀ s t : State, CommandTurn s → step s = .next t → portEvents s t = { out := [], warn := [] }) ∧
    (∀ (s t : State) (c idx : Code) (w : Nat), s.phase = .run → BlockTurn s →
      decodeWindow s.ctx s.off (s.len - s.bp) s.win = .code (.byd c) idx w → step s = .next t →
        (portEvents s t).warn = [{ kind := .dictCorrupt, code := c, size := s.size, ncodes := s.ncodes + 1 }]) ∧
    ∀ s t : State, step s = .next t → (portEvents s t).warn ≠ [] →
      s.phase = .run ∧ BlockTurn s ∧
        ∃ c idx w, decodeWindow s.ctx s.off (s.len - s.bp) s.win = .code (.byd c) idx w

/-- R12, R33: no step but the host's own write changes IN, and no step changes DICT_CAP. -/
def Obligations.InputNeverWrittenByBlock : Prop :=
  ∀ s t : State, step s = .next t →
    t.dictCap = s.dictCap ∧ ((∀ a b rest, s.host ≠ .writeIn a b :: rest) → t.inMem = s.inMem)

/-- R29, R58, R105, R108: what each level and register port gives in each STATE. DONE shows OUT and its length and no ERR or ERR_INFO, FAULT
shows ERR and ERR_INFO and no OUT, both show the warnings, IDLE and RUN show none of these; STATE, the levels DONE and
FAULT, WARN_COUNT and MCS are shown in every STATE. The numbers of STATE, ERR and the warning's kind are those of R26,
R101 and R102. -/
def Obligations.HostReadsResultOnly : Prop :=
  (∀ s : State,
    (s.phase = .idle → s.hostView.stateNum = 0#2 ∧ s.hostView.done = false ∧ s.hostView.fault = false) ∧
      (s.phase = .run → s.hostView.stateNum = 1#2 ∧ s.hostView.done = false ∧ s.hostView.fault = false) ∧
      (s.phase = .done → s.hostView.stateNum = 2#2 ∧ s.hostView.done = true ∧ s.hostView.fault = false ∧
        s.hostView.out = some s.out ∧ s.hostView.outCount = some s.out.length ∧ s.hostView.err = none ∧
        s.hostView.errInfo = none ∧ s.hostView.warnings = some s.warnLog ∧ s.result = some (.ok s.out s.warnLog)) ∧
      (s.phase = .fault → s.hostView.stateNum = 3#2 ∧ s.hostView.done = false ∧ s.hostView.fault = true ∧
        s.hostView.out = none ∧ s.hostView.outCount = none ∧ s.hostView.err = some s.err.num ∧
        s.hostView.errInfo = some s.errInfo ∧ s.hostView.warnings = some s.warnLog ∧
        s.result = some (.error s.err s.warnLog)) ∧
      (s.phase = .idle ∨ s.phase = .run → s.hostView.out = none ∧ s.hostView.outCount = none ∧
        s.hostView.err = none ∧ s.hostView.errInfo = none ∧ s.hostView.warnings = none ∧ s.result = none) ∧
      s.hostView.warnCount = s.warnLog.length ∧ s.hostView.mcs = s.mcs) ∧
    ErrCode.none.num = 0#3 ∧ ErrCode.truncatedLzw.num = 1#3 ∧ ErrCode.noPrefix.num = 2#3 ∧
    ErrCode.dictFull.num = 3#3 ∧ ErrCode.badConfig.num = 4#3 ∧ WarnKind.dictCorrupt.num = 1

/-! ## Whole runs (R15, R38, R66, R67, R100) -/

/-- R15, R38, R67, U6: what a run computes does not depend on the minimum-code-size byte, nor on any byte at or beyond
LEN: two states that differ only there and in MCS stay so for any number of steps. And a run that comes to DONE does
not depend on LEN, nor on any bit of the buffer but those from where it stood to the end of the End-of-Information code:
neither the unused high bits of that byte nor any byte after it has an effect, present or not. -/
def Obligations.OnlyCodeBytesMatter : Prop :=
  (∀ (n : Nat) (s t : State) (mem : List Host.Cell) (mcs : Byte),
    s.host = [] → 1 ≤ s.bp → SameCodes s.inMem mem s.len → core.run n s = .next t →
      core.run n { s with inMem := mem, mcs := mcs } = .next { t with inMem := mem, mcs := mcs }) ∧
    ∀ (n : Nat) (s t : State) (mem : List Host.Cell) (mcs : Byte) (len : Nat),
      s.host = [] → core.run n s = .next t → t.phase = .done → 8 * t.bp + t.off.toNat ≤ 8 * len →
      SameBits s.inMem mem (8 * s.bp + s.off.toNat) (8 * t.bp + t.off.toNat) →
        core.run n { s with inMem := mem, mcs := mcs, len := len } =
          .next { t with inMem := mem, mcs := mcs, len := len }

/-- R66: every run ends, in at most 4 * max(LEN - 1, 0) + 1 STEPs after START. -/
def Obligations.EveryRunEnds : Prop :=
  ∀ (s : State) (k : BitVec 9) (len : Nat),
    s.host = [.start k len] → s.phase ≠ .run → legalK k = true → k.toNat + 2 ≤ s.dictCap → s.dictCap ≤ 65536 →
    ∃ t, core.run (1 + stepBound len) s = .next t ∧ (t.phase = .done ∨ t.phase = .fault)

/-- R100: the run of the machine computes what the one function of R100 computes. -/
def Obligations.RunComputesWholeFunction : Prop :=
  ∀ (s : State) (k : BitVec 9) (len : Nat),
    s.host = [.start k len] → s.phase ≠ .run → legalK k = true → k.toNat + 2 ≤ s.dictCap → s.dictCap ≤ 65536 →
    ∃ t r, core.run (1 + stepBound len) s = .next t ∧ t.result = some r ∧
      decodeWhole k s.dictCap len s.inMem = some r

/-- The decode half of property S2 (95_test_vectors.md part 1), with the assembler of R57: a stream made of literals and
an End-of-Information code decodes to exactly the literals, for every K and every minimum-code-size byte. -/
def Obligations.LiteralStreamDecodesToItself : Prop :=
  ∀ (s : State) (k : BitVec 9) (mcs : Byte) (lits : List Byte) (len : Nat),
    legalK k = true → BelowK k lits → k.toNat + 2 + lits.length ≤ s.dictCap → s.dictCap ≤ 65536 →
    len = (assemble mcs k (lits.map (fun x => .lit (x.setWidth 16)) ++ [.eoi])).length →
    s.inMem = Memory.writeBytes [] 0 (assemble mcs k (lits.map (fun x => .lit (x.setWidth 16)) ++ [.eoi])) →
    s.host = [.start k len] → s.phase ≠ .run →
    ∃ t, core.run (1 + stepBound len) s = .next t ∧ t.result = some (.ok lits [])
end

