-- ==== Sys2Proof/Laws/Memory.lean ====
section
/-! SUPPORT. The buffer IN: read after write, and that every operation keeps the canonical form. -/

namespace Sys2Proof.Machine

@[simp] theorem Memory.read_nil (x : Nat) : Memory.read [] x = Config.unlistedByte := rfl

theorem Memory.read_cons (a : Nat) (b : Byte) (rest : List Host.Cell) (x : Nat) :
    Memory.read ((a, b) :: rest) x = if x = a then b else Memory.read rest x := rfl

/-- An address below every listed one is unlisted. -/
theorem Memory.read_of_lt {m : List Host.Cell} {x : Nat} (h : ∀ c ∈ m, x < c.1) :
    Memory.read m x = Config.unlistedByte := by
  induction m with
  | nil => rfl
  | cons c rest ih =>
    obtain ⟨a, b⟩ := c
    have hx : x ≠ a := Nat.ne_of_lt (h (a, b) (by simp))
    rw [Memory.read_cons, if_neg hx]
    exact ih fun c hc => h c (by simp [hc])

theorem Memory.wf_cons {a : Nat} {b : Byte} {rest : List Host.Cell} :
    Memory.wf ((a, b) :: rest) = true ↔
      b ≠ Config.unlistedByte ∧ (∀ c ∈ rest, a < c.1) ∧ Memory.wf rest = true := by
  simp [Memory.wf, and_assoc]

/-- Every address a write lists is the written one or was listed before. -/
theorem Memory.mem_write {m : List Host.Cell} {x : Nat} {v : Byte} {c : Host.Cell}
    (h : c ∈ Memory.write m x v) : c = (x, v) ∨ c ∈ m := by
  induction m with
  | nil =>
    simp only [Memory.write] at h
    split at h <;> simp_all
  | cons d rest ih =>
    obtain ⟨a, b⟩ := d
    simp only [Memory.write] at h
    split at h
    · split at h <;> simp_all
    · split at h
      · split at h <;> simp_all
        tauto
      · rcases List.mem_cons.mp h with h | h
        · simp [h]
        · rcases ih h with h | h <;> simp [h]

theorem Memory.wf_write {m : List Host.Cell} (x : Nat) (v : Byte) (h : Memory.wf m = true) :
    Memory.wf (Memory.write m x v) = true := by
  induction m with
  | nil =>
    simp only [Memory.write]
    split
    · rfl
    · rename_i hv
      simp [hv, Memory.wf]
  | cons d rest ih =>
    obtain ⟨a, b⟩ := d
    obtain ⟨hb, ha, hr⟩ := Memory.wf_cons.mp h
    simp only [Memory.write]
    split
    · rename_i hxa
      split
      · exact h
      · rename_i hv
        refine Memory.wf_cons.mpr ⟨hv, fun c hc => ?_, h⟩
        rcases List.mem_cons.mp hc with rfl | hc
        · exact hxa
        · exact Nat.lt_trans hxa (ha c hc)
    · split
      · rename_i hxa
        split
        · exact hr
        · rename_i hv
          exact Memory.wf_cons.mpr ⟨hv, fun c hc => hxa ▸ ha c hc, hr⟩
      · refine Memory.wf_cons.mpr ⟨hb, fun c hc => ?_, ih hr⟩
        rcases Memory.mem_write hc with rfl | hc
        · simp; omega
        · exact ha c hc

theorem Memory.read_write_same {m : List Host.Cell} (x : Nat) (v : Byte) (h : Memory.wf m = true) :
    Memory.read (Memory.write m x v) x = v := by
  induction m with
  | nil =>
    simp only [Memory.write]
    split
    · rename_i hv
      simp [hv]
    · simp [Memory.read_cons]
  | cons d rest ih =>
    obtain ⟨a, b⟩ := d
    obtain ⟨hb, ha, hr⟩ := Memory.wf_cons.mp h
    simp only [Memory.write]
    split
    · rename_i hxa
      split
      · rename_i hv
        rw [hv]
        refine Memory.read_of_lt fun c hc => ?_
        rcases List.mem_cons.mp hc with rfl | hc
        · exact hxa
        · exact Nat.lt_trans hxa (ha c hc)
      · simp [Memory.read_cons]
    · split
      · rename_i hxa
        split
        · rename_i hv
          rw [hv]
          exact Memory.read_of_lt fun c hc => hxa ▸ ha c hc
        · simp [Memory.read_cons]
      · rename_i hxa
        rw [Memory.read_cons, if_neg hxa]
        exact ih hr

theorem Memory.read_write_other (m : List Host.Cell) {x y : Nat} (v : Byte) (h : y ≠ x) :
    Memory.read (Memory.write m x v) y = Memory.read m y := by
  induction m with
  | nil =>
    simp only [Memory.write]
    split
    · rfl
    · simp [Memory.read_cons, h]
  | cons d rest ih =>
    obtain ⟨a, b⟩ := d
    simp only [Memory.write]
    split
    · split
      · rfl
      · simp [Memory.read_cons, h]
    · split
      · rename_i hxa
        split
        · rw [Memory.read_cons, if_neg (hxa ▸ h)]
        · rw [Memory.read_cons, Memory.read_cons, if_neg h, if_neg (hxa ▸ h)]
      · rw [Memory.read_cons, Memory.read_cons, ih]

theorem Memory.wf_writeBytes {m : List Host.Cell} (x : Nat) (vs : List Byte) (h : Memory.wf m = true) :
    Memory.wf (Memory.writeBytes m x vs) = true := by
  induction vs generalizing m x with
  | nil => exact h
  | cons v vs ih => exact ih (x + 1) (Memory.wf_write x v h)

/-- An address outside the bytes written reads as before. -/
theorem Memory.read_writeBytes_other (m : List Host.Cell) {x y : Nat} (vs : List Byte)
    (h : y < x ∨ x + vs.length ≤ y) : Memory.read (Memory.writeBytes m x vs) y = Memory.read m y := by
  induction vs generalizing m x with
  | nil => rfl
  | cons v vs ih =>
    simp only [List.length_cons] at h
    rw [Memory.writeBytes, ih _ (by omega), Memory.read_write_other m v (by omega)]

/-- Each byte written is read back. -/
theorem Memory.read_writeBytes_same {m : List Host.Cell} (x : Nat) (vs : List Byte) (i : Nat) (hi : i < vs.length)
    (h : Memory.wf m = true) : Memory.read (Memory.writeBytes m x vs) (x + i) = vs[i] := by
  induction vs generalizing m x i with
  | nil => simp at hi
  | cons v vs ih =>
    cases i with
    | zero =>
      rw [Memory.writeBytes, Memory.read_writeBytes_other _ _ (by omega)]
      exact Memory.read_write_same x v h
    | succ i =>
      rw [Memory.writeBytes, show x + (i + 1) = x + 1 + i by omega]
      exact ih (x + 1) i (by simpa using hi) (Memory.wf_write x v h)

theorem reset_inMem_wf : Memory.wf State.reset.inMem = true := rfl

/-- Placing a word of the opcode table keeps the canonical form. -/
theorem withFetchWord_inMem_wf (s : State) (nbits w : Nat) (h : Memory.wf s.inMem = true) :
    Memory.wf (s.withFetchWord nbits w).inMem = true :=
  Memory.wf_writeBytes 1 _ h

end Sys2Proof.Machine
end

