-- ==== Sys2Proof/Laws/State.lean ====
section
/-! SUPPORT. One lemma per field per update of the state, so that no proof unfolds a record update. -/

namespace Sys2Proof.Machine

/-! ## raise, the fault entry (R104) -/

@[simp] theorem raise_k (e : ErrCode) (r : ErrInfo → ErrInfo) (s : State) : (raise e r s).k = s.k := rfl
@[simp] theorem raise_len (e : ErrCode) (r : ErrInfo → ErrInfo) (s : State) : (raise e r s).len = s.len := rfl
@[simp] theorem raise_mcs (e : ErrCode) (r : ErrInfo → ErrInfo) (s : State) : (raise e r s).mcs = s.mcs := rfl
@[simp] theorem raise_bp (e : ErrCode) (r : ErrInfo → ErrInfo) (s : State) : (raise e r s).bp = s.bp := rfl
@[simp] theorem raise_off (e : ErrCode) (r : ErrInfo → ErrInfo) (s : State) : (raise e r s).off = s.off := rfl
@[simp] theorem raise_width (e : ErrCode) (r : ErrInfo → ErrInfo) (s : State) : (raise e r s).width = s.width := rfl
@[simp] theorem raise_code (e : ErrCode) (r : ErrInfo → ErrInfo) (s : State) : (raise e r s).code = s.code := rfl
@[simp] theorem raise_ncodes (e : ErrCode) (r : ErrInfo → ErrInfo) (s : State) : (raise e r s).ncodes = s.ncodes := rfl
@[simp] theorem raise_dict (e : ErrCode) (r : ErrInfo → ErrInfo) (s : State) : (raise e r s).dict = s.dict := rfl
@[simp] theorem raise_orig (e : ErrCode) (r : ErrInfo → ErrInfo) (s : State) : (raise e r s).orig = s.orig := rfl
@[simp] theorem raise_prev (e : ErrCode) (r : ErrInfo → ErrInfo) (s : State) : (raise e r s).prev = s.prev := rfl
@[simp] theorem raise_out (e : ErrCode) (r : ErrInfo → ErrInfo) (s : State) : (raise e r s).out = s.out := rfl
@[simp] theorem raise_phase (e : ErrCode) (r : ErrInfo → ErrInfo) (s : State) : (raise e r s).phase = .fault := rfl
@[simp] theorem raise_err (e : ErrCode) (r : ErrInfo → ErrInfo) (s : State) : (raise e r s).err = e := rfl
@[simp] theorem raise_errInfo (e : ErrCode) (r : ErrInfo → ErrInfo) (s : State) : (raise e r s).errInfo = r s.unspecified.errInfo := rfl
@[simp] theorem raise_warnLog (e : ErrCode) (r : ErrInfo → ErrInfo) (s : State) : (raise e r s).warnLog = s.warnLog := rfl
@[simp] theorem raise_inMem (e : ErrCode) (r : ErrInfo → ErrInfo) (s : State) : (raise e r s).inMem = s.inMem := rfl
@[simp] theorem raise_dictCap (e : ErrCode) (r : ErrInfo → ErrInfo) (s : State) : (raise e r s).dictCap = s.dictCap := rfl
@[simp] theorem raise_host (e : ErrCode) (r : ErrInfo → ErrInfo) (s : State) : (raise e r s).host = s.host := rfl
@[simp] theorem raise_free (e : ErrCode) (r : ErrInfo → ErrInfo) (s : State) : (raise e r s).free = s.free + 1 := rfl

/-! ## warn, the warning entry (R106) -/

@[simp] theorem warn_k (w : WarnKind) (c : Code) (s : State) : (warn w c s).k = s.k := rfl
@[simp] theorem warn_len (w : WarnKind) (c : Code) (s : State) : (warn w c s).len = s.len := rfl
@[simp] theorem warn_mcs (w : WarnKind) (c : Code) (s : State) : (warn w c s).mcs = s.mcs := rfl
@[simp] theorem warn_bp (w : WarnKind) (c : Code) (s : State) : (warn w c s).bp = s.bp := rfl
@[simp] theorem warn_off (w : WarnKind) (c : Code) (s : State) : (warn w c s).off = s.off := rfl
@[simp] theorem warn_width (w : WarnKind) (c : Code) (s : State) : (warn w c s).width = s.width := rfl
@[simp] theorem warn_code (w : WarnKind) (c : Code) (s : State) : (warn w c s).code = s.code := rfl
@[simp] theorem warn_ncodes (w : WarnKind) (c : Code) (s : State) : (warn w c s).ncodes = s.ncodes := rfl
@[simp] theorem warn_dict (w : WarnKind) (c : Code) (s : State) : (warn w c s).dict = s.dict := rfl
@[simp] theorem warn_orig (w : WarnKind) (c : Code) (s : State) : (warn w c s).orig = s.orig := rfl
@[simp] theorem warn_prev (w : WarnKind) (c : Code) (s : State) : (warn w c s).prev = s.prev := rfl
@[simp] theorem warn_out (w : WarnKind) (c : Code) (s : State) : (warn w c s).out = s.out := rfl
@[simp] theorem warn_phase (w : WarnKind) (c : Code) (s : State) : (warn w c s).phase = s.phase := rfl
@[simp] theorem warn_err (w : WarnKind) (c : Code) (s : State) : (warn w c s).err = s.err := rfl
@[simp] theorem warn_errInfo (w : WarnKind) (c : Code) (s : State) : (warn w c s).errInfo = s.errInfo := rfl
@[simp] theorem warn_warnLog (w : WarnKind) (c : Code) (s : State) : (warn w c s).warnLog = s.warnLog ++ [{ kind := w, code := c, size := s.size, ncodes := s.ncodes }] := rfl
@[simp] theorem warn_inMem (w : WarnKind) (c : Code) (s : State) : (warn w c s).inMem = s.inMem := rfl
@[simp] theorem warn_dictCap (w : WarnKind) (c : Code) (s : State) : (warn w c s).dictCap = s.dictCap := rfl
@[simp] theorem warn_host (w : WarnKind) (c : Code) (s : State) : (warn w c s).host = s.host := rfl
@[simp] theorem warn_free (w : WarnKind) (c : Code) (s : State) : (warn w c s).free = s.free := rfl

/-! ## emit (R89) -/

@[simp] theorem emit_k (p : Phrase) (s : State) : (emit p s).k = s.k := rfl
@[simp] theorem emit_len (p : Phrase) (s : State) : (emit p s).len = s.len := rfl
@[simp] theorem emit_mcs (p : Phrase) (s : State) : (emit p s).mcs = s.mcs := rfl
@[simp] theorem emit_bp (p : Phrase) (s : State) : (emit p s).bp = s.bp := rfl
@[simp] theorem emit_off (p : Phrase) (s : State) : (emit p s).off = s.off := rfl
@[simp] theorem emit_width (p : Phrase) (s : State) : (emit p s).width = s.width := rfl
@[simp] theorem emit_code (p : Phrase) (s : State) : (emit p s).code = s.code := rfl
@[simp] theorem emit_ncodes (p : Phrase) (s : State) : (emit p s).ncodes = s.ncodes := rfl
@[simp] theorem emit_dict (p : Phrase) (s : State) : (emit p s).dict = s.dict := rfl
@[simp] theorem emit_orig (p : Phrase) (s : State) : (emit p s).orig = s.orig := rfl
@[simp] theorem emit_prev (p : Phrase) (s : State) : (emit p s).prev = s.prev := rfl
@[simp] theorem emit_out (p : Phrase) (s : State) : (emit p s).out = s.out ++ p := rfl
@[simp] theorem emit_phase (p : Phrase) (s : State) : (emit p s).phase = s.phase := rfl
@[simp] theorem emit_err (p : Phrase) (s : State) : (emit p s).err = s.err := rfl
@[simp] theorem emit_errInfo (p : Phrase) (s : State) : (emit p s).errInfo = s.errInfo := rfl
@[simp] theorem emit_warnLog (p : Phrase) (s : State) : (emit p s).warnLog = s.warnLog := rfl
@[simp] theorem emit_inMem (p : Phrase) (s : State) : (emit p s).inMem = s.inMem := rfl
@[simp] theorem emit_dictCap (p : Phrase) (s : State) : (emit p s).dictCap = s.dictCap := rfl
@[simp] theorem emit_host (p : Phrase) (s : State) : (emit p s).host = s.host := rfl
@[simp] theorem emit_free (p : Phrase) (s : State) : (emit p s).free = s.free := rfl

/-! ## dictTruncate (R77) -/

@[simp] theorem dictTruncate_k (s : State) : (dictTruncate s).k = s.k := rfl
@[simp] theorem dictTruncate_len (s : State) : (dictTruncate s).len = s.len := rfl
@[simp] theorem dictTruncate_mcs (s : State) : (dictTruncate s).mcs = s.mcs := rfl
@[simp] theorem dictTruncate_bp (s : State) : (dictTruncate s).bp = s.bp := rfl
@[simp] theorem dictTruncate_off (s : State) : (dictTruncate s).off = s.off := rfl
@[simp] theorem dictTruncate_width (s : State) : (dictTruncate s).width = s.width := rfl
@[simp] theorem dictTruncate_code (s : State) : (dictTruncate s).code = s.code := rfl
@[simp] theorem dictTruncate_ncodes (s : State) : (dictTruncate s).ncodes = s.ncodes := rfl
@[simp] theorem dictTruncate_dict (s : State) : (dictTruncate s).dict = s.dict.take s.orig.toNat := rfl
@[simp] theorem dictTruncate_orig (s : State) : (dictTruncate s).orig = s.orig := rfl
@[simp] theorem dictTruncate_prev (s : State) : (dictTruncate s).prev = s.prev := rfl
@[simp] theorem dictTruncate_out (s : State) : (dictTruncate s).out = s.out := rfl
@[simp] theorem dictTruncate_phase (s : State) : (dictTruncate s).phase = s.phase := rfl
@[simp] theorem dictTruncate_err (s : State) : (dictTruncate s).err = s.err := rfl
@[simp] theorem dictTruncate_errInfo (s : State) : (dictTruncate s).errInfo = s.errInfo := rfl
@[simp] theorem dictTruncate_warnLog (s : State) : (dictTruncate s).warnLog = s.warnLog := rfl
@[simp] theorem dictTruncate_inMem (s : State) : (dictTruncate s).inMem = s.inMem := rfl
@[simp] theorem dictTruncate_dictCap (s : State) : (dictTruncate s).dictCap = s.dictCap := rfl
@[simp] theorem dictTruncate_host (s : State) : (dictTruncate s).host = s.host := rfl
@[simp] theorem dictTruncate_free (s : State) : (dictTruncate s).free = s.free := rfl

/-! ## pushEntry, the append of R83 -/

@[simp] theorem pushEntry_k (p : Phrase) (s : State) : (pushEntry p s).k = s.k := rfl
@[simp] theorem pushEntry_len (p : Phrase) (s : State) : (pushEntry p s).len = s.len := rfl
@[simp] theorem pushEntry_mcs (p : Phrase) (s : State) : (pushEntry p s).mcs = s.mcs := rfl
@[simp] theorem pushEntry_bp (p : Phrase) (s : State) : (pushEntry p s).bp = s.bp := rfl
@[simp] theorem pushEntry_off (p : Phrase) (s : State) : (pushEntry p s).off = s.off := rfl
@[simp] theorem pushEntry_width (p : Phrase) (s : State) : (pushEntry p s).width = s.width := rfl
@[simp] theorem pushEntry_code (p : Phrase) (s : State) : (pushEntry p s).code = s.code := rfl
@[simp] theorem pushEntry_ncodes (p : Phrase) (s : State) : (pushEntry p s).ncodes = s.ncodes := rfl
@[simp] theorem pushEntry_dict (p : Phrase) (s : State) : (pushEntry p s).dict = s.dict ++ [p] := rfl
@[simp] theorem pushEntry_orig (p : Phrase) (s : State) : (pushEntry p s).orig = s.orig := rfl
@[simp] theorem pushEntry_prev (p : Phrase) (s : State) : (pushEntry p s).prev = s.prev := rfl
@[simp] theorem pushEntry_out (p : Phrase) (s : State) : (pushEntry p s).out = s.out := rfl
@[simp] theorem pushEntry_phase (p : Phrase) (s : State) : (pushEntry p s).phase = s.phase := rfl
@[simp] theorem pushEntry_err (p : Phrase) (s : State) : (pushEntry p s).err = s.err := rfl
@[simp] theorem pushEntry_errInfo (p : Phrase) (s : State) : (pushEntry p s).errInfo = s.errInfo := rfl
@[simp] theorem pushEntry_warnLog (p : Phrase) (s : State) : (pushEntry p s).warnLog = s.warnLog := rfl
@[simp] theorem pushEntry_inMem (p : Phrase) (s : State) : (pushEntry p s).inMem = s.inMem := rfl
@[simp] theorem pushEntry_dictCap (p : Phrase) (s : State) : (pushEntry p s).dictCap = s.dictCap := rfl
@[simp] theorem pushEntry_host (p : Phrase) (s : State) : (pushEntry p s).host = s.host := rfl
@[simp] theorem pushEntry_free (p : Phrase) (s : State) : (pushEntry p s).free = s.free := rfl

/-! ## setPrev, clearPrev, finish: the flags (R21) -/

@[simp] theorem setPrev_k (p : Phrase) (s : State) : (setPrev p s).k = s.k := rfl
@[simp] theorem setPrev_len (p : Phrase) (s : State) : (setPrev p s).len = s.len := rfl
@[simp] theorem setPrev_mcs (p : Phrase) (s : State) : (setPrev p s).mcs = s.mcs := rfl
@[simp] theorem setPrev_bp (p : Phrase) (s : State) : (setPrev p s).bp = s.bp := rfl
@[simp] theorem setPrev_off (p : Phrase) (s : State) : (setPrev p s).off = s.off := rfl
@[simp] theorem setPrev_width (p : Phrase) (s : State) : (setPrev p s).width = s.width := rfl
@[simp] theorem setPrev_code (p : Phrase) (s : State) : (setPrev p s).code = s.code := rfl
@[simp] theorem setPrev_ncodes (p : Phrase) (s : State) : (setPrev p s).ncodes = s.ncodes := rfl
@[simp] theorem setPrev_dict (p : Phrase) (s : State) : (setPrev p s).dict = s.dict := rfl
@[simp] theorem setPrev_orig (p : Phrase) (s : State) : (setPrev p s).orig = s.orig := rfl
@[simp] theorem setPrev_prev (p : Phrase) (s : State) : (setPrev p s).prev = some p := rfl
@[simp] theorem setPrev_out (p : Phrase) (s : State) : (setPrev p s).out = s.out := rfl
@[simp] theorem setPrev_phase (p : Phrase) (s : State) : (setPrev p s).phase = s.phase := rfl
@[simp] theorem setPrev_err (p : Phrase) (s : State) : (setPrev p s).err = s.err := rfl
@[simp] theorem setPrev_errInfo (p : Phrase) (s : State) : (setPrev p s).errInfo = s.errInfo := rfl
@[simp] theorem setPrev_warnLog (p : Phrase) (s : State) : (setPrev p s).warnLog = s.warnLog := rfl
@[simp] theorem setPrev_inMem (p : Phrase) (s : State) : (setPrev p s).inMem = s.inMem := rfl
@[simp] theorem setPrev_dictCap (p : Phrase) (s : State) : (setPrev p s).dictCap = s.dictCap := rfl
@[simp] theorem setPrev_host (p : Phrase) (s : State) : (setPrev p s).host = s.host := rfl
@[simp] theorem setPrev_free (p : Phrase) (s : State) : (setPrev p s).free = s.free := rfl
@[simp] theorem clearPrev_k (s : State) : (clearPrev s).k = s.k := rfl
@[simp] theorem clearPrev_len (s : State) : (clearPrev s).len = s.len := rfl
@[simp] theorem clearPrev_mcs (s : State) : (clearPrev s).mcs = s.mcs := rfl
@[simp] theorem clearPrev_bp (s : State) : (clearPrev s).bp = s.bp := rfl
@[simp] theorem clearPrev_off (s : State) : (clearPrev s).off = s.off := rfl
@[simp] theorem clearPrev_width (s : State) : (clearPrev s).width = s.width := rfl
@[simp] theorem clearPrev_code (s : State) : (clearPrev s).code = s.code := rfl
@[simp] theorem clearPrev_ncodes (s : State) : (clearPrev s).ncodes = s.ncodes := rfl
@[simp] theorem clearPrev_dict (s : State) : (clearPrev s).dict = s.dict := rfl
@[simp] theorem clearPrev_orig (s : State) : (clearPrev s).orig = s.orig := rfl
@[simp] theorem clearPrev_prev (s : State) : (clearPrev s).prev = none := rfl
@[simp] theorem clearPrev_out (s : State) : (clearPrev s).out = s.out := rfl
@[simp] theorem clearPrev_phase (s : State) : (clearPrev s).phase = s.phase := rfl
@[simp] theorem clearPrev_err (s : State) : (clearPrev s).err = s.err := rfl
@[simp] theorem clearPrev_errInfo (s : State) : (clearPrev s).errInfo = s.errInfo := rfl
@[simp] theorem clearPrev_warnLog (s : State) : (clearPrev s).warnLog = s.warnLog := rfl
@[simp] theorem clearPrev_inMem (s : State) : (clearPrev s).inMem = s.inMem := rfl
@[simp] theorem clearPrev_dictCap (s : State) : (clearPrev s).dictCap = s.dictCap := rfl
@[simp] theorem clearPrev_host (s : State) : (clearPrev s).host = s.host := rfl
@[simp] theorem clearPrev_free (s : State) : (clearPrev s).free = s.free := rfl
@[simp] theorem finish_k (s : State) : (finish s).k = s.k := rfl
@[simp] theorem finish_len (s : State) : (finish s).len = s.len := rfl
@[simp] theorem finish_mcs (s : State) : (finish s).mcs = s.mcs := rfl
@[simp] theorem finish_bp (s : State) : (finish s).bp = s.bp := rfl
@[simp] theorem finish_off (s : State) : (finish s).off = s.off := rfl
@[simp] theorem finish_width (s : State) : (finish s).width = s.width := rfl
@[simp] theorem finish_code (s : State) : (finish s).code = s.code := rfl
@[simp] theorem finish_ncodes (s : State) : (finish s).ncodes = s.ncodes := rfl
@[simp] theorem finish_dict (s : State) : (finish s).dict = s.dict := rfl
@[simp] theorem finish_orig (s : State) : (finish s).orig = s.orig := rfl
@[simp] theorem finish_prev (s : State) : (finish s).prev = s.prev := rfl
@[simp] theorem finish_out (s : State) : (finish s).out = s.out := rfl
@[simp] theorem finish_phase (s : State) : (finish s).phase = .done := rfl
@[simp] theorem finish_err (s : State) : (finish s).err = s.err := rfl
@[simp] theorem finish_errInfo (s : State) : (finish s).errInfo = s.errInfo := rfl
@[simp] theorem finish_warnLog (s : State) : (finish s).warnLog = s.warnLog := rfl
@[simp] theorem finish_inMem (s : State) : (finish s).inMem = s.inMem := rfl
@[simp] theorem finish_dictCap (s : State) : (finish s).dictCap = s.dictCap := rfl
@[simp] theorem finish_host (s : State) : (finish s).host = s.host := rfl
@[simp] theorem finish_free (s : State) : (finish s).free = s.free := rfl

/-! ## advance, EXTRACT's writes (R73) -/

@[simp] theorem advance_k (idx : Code) (w : Nat) (s : State) : (advance idx w s).k = s.k := rfl
@[simp] theorem advance_len (idx : Code) (w : Nat) (s : State) : (advance idx w s).len = s.len := rfl
@[simp] theorem advance_mcs (idx : Code) (w : Nat) (s : State) : (advance idx w s).mcs = s.mcs := rfl
@[simp] theorem advance_bp (idx : Code) (w : Nat) (s : State) : (advance idx w s).bp = s.bp + codeAdv s.off w := rfl
@[simp] theorem advance_off (idx : Code) (w : Nat) (s : State) : (advance idx w s).off = codeNextOff s.off w := rfl
@[simp] theorem advance_width (idx : Code) (w : Nat) (s : State) : (advance idx w s).width = BitVec.ofNat 5 w := rfl
@[simp] theorem advance_code (idx : Code) (w : Nat) (s : State) : (advance idx w s).code = idx := rfl
@[simp] theorem advance_ncodes (idx : Code) (w : Nat) (s : State) : (advance idx w s).ncodes = s.ncodes + 1 := rfl
@[simp] theorem advance_dict (idx : Code) (w : Nat) (s : State) : (advance idx w s).dict = s.dict := rfl
@[simp] theorem advance_orig (idx : Code) (w : Nat) (s : State) : (advance idx w s).orig = s.orig := rfl
@[simp] theorem advance_prev (idx : Code) (w : Nat) (s : State) : (advance idx w s).prev = s.prev := rfl
@[simp] theorem advance_out (idx : Code) (w : Nat) (s : State) : (advance idx w s).out = s.out := rfl
@[simp] theorem advance_phase (idx : Code) (w : Nat) (s : State) : (advance idx w s).phase = s.phase := rfl
@[simp] theorem advance_err (idx : Code) (w : Nat) (s : State) : (advance idx w s).err = s.err := rfl
@[simp] theorem advance_errInfo (idx : Code) (w : Nat) (s : State) : (advance idx w s).errInfo = s.errInfo := rfl
@[simp] theorem advance_warnLog (idx : Code) (w : Nat) (s : State) : (advance idx w s).warnLog = s.warnLog := rfl
@[simp] theorem advance_inMem (idx : Code) (w : Nat) (s : State) : (advance idx w s).inMem = s.inMem := rfl
@[simp] theorem advance_dictCap (idx : Code) (w : Nat) (s : State) : (advance idx w s).dictCap = s.dictCap := rfl
@[simp] theorem advance_host (idx : Code) (w : Nat) (s : State) : (advance idx w s).host = s.host := rfl
@[simp] theorem advance_free (idx : Code) (w : Nat) (s : State) : (advance idx w s).free = s.free := rfl

/-! ## resetCommand (R59) -/

@[simp] theorem resetCommand_k (s : State) : (resetCommand s).k = s.unspecified.k := rfl
@[simp] theorem resetCommand_len (s : State) : (resetCommand s).len = s.unspecified.len := rfl
@[simp] theorem resetCommand_mcs (s : State) : (resetCommand s).mcs = s.unspecified.mcs := rfl
@[simp] theorem resetCommand_bp (s : State) : (resetCommand s).bp = s.unspecified.bp := rfl
@[simp] theorem resetCommand_off (s : State) : (resetCommand s).off = s.unspecified.off := rfl
@[simp] theorem resetCommand_width (s : State) : (resetCommand s).width = s.unspecified.width := rfl
@[simp] theorem resetCommand_code (s : State) : (resetCommand s).code = s.unspecified.code := rfl
@[simp] theorem resetCommand_ncodes (s : State) : (resetCommand s).ncodes = s.unspecified.ncodes := rfl
@[simp] theorem resetCommand_dict (s : State) : (resetCommand s).dict = s.unspecified.dict := rfl
@[simp] theorem resetCommand_orig (s : State) : (resetCommand s).orig = s.unspecified.orig := rfl
@[simp] theorem resetCommand_prev (s : State) : (resetCommand s).prev = s.unspecified.prev := rfl
@[simp] theorem resetCommand_out (s : State) : (resetCommand s).out = [] := rfl
@[simp] theorem resetCommand_phase (s : State) : (resetCommand s).phase = .idle := rfl
@[simp] theorem resetCommand_err (s : State) : (resetCommand s).err = .none := rfl
@[simp] theorem resetCommand_errInfo (s : State) : (resetCommand s).errInfo = s.unspecified.errInfo := rfl
@[simp] theorem resetCommand_warnLog (s : State) : (resetCommand s).warnLog = [] := rfl
@[simp] theorem resetCommand_inMem (s : State) : (resetCommand s).inMem = s.inMem := rfl
@[simp] theorem resetCommand_dictCap (s : State) : (resetCommand s).dictCap = s.dictCap := rfl
@[simp] theorem resetCommand_host (s : State) : (resetCommand s).host = s.host := rfl
@[simp] theorem resetCommand_free (s : State) : (resetCommand s).free = s.free + 1 := rfl

/-! ## startLegal (R60) -/

@[simp] theorem startLegal_k (k : BitVec 9) (len : Nat) (s : State) : (startLegal k len s).k = k := rfl
@[simp] theorem startLegal_len (k : BitVec 9) (len : Nat) (s : State) : (startLegal k len s).len = len := rfl
@[simp] theorem startLegal_mcs (k : BitVec 9) (len : Nat) (s : State) : (startLegal k len s).mcs = latchedMcs len s := rfl
@[simp] theorem startLegal_bp (k : BitVec 9) (len : Nat) (s : State) : (startLegal k len s).bp = 1 := rfl
@[simp] theorem startLegal_off (k : BitVec 9) (len : Nat) (s : State) : (startLegal k len s).off = 0#3 := rfl
@[simp] theorem startLegal_width (k : BitVec 9) (len : Nat) (s : State) : (startLegal k len s).width = s.unspecified.width := rfl
@[simp] theorem startLegal_code (k : BitVec 9) (len : Nat) (s : State) : (startLegal k len s).code = s.unspecified.code := rfl
@[simp] theorem startLegal_ncodes (k : BitVec 9) (len : Nat) (s : State) : (startLegal k len s).ncodes = 0 := rfl
@[simp] theorem startLegal_dict (k : BitVec 9) (len : Nat) (s : State) : (startLegal k len s).dict = dictInit k := rfl
@[simp] theorem startLegal_orig (k : BitVec 9) (len : Nat) (s : State) : (startLegal k len s).orig = k + 2#9 := rfl
@[simp] theorem startLegal_prev (k : BitVec 9) (len : Nat) (s : State) : (startLegal k len s).prev = none := rfl
@[simp] theorem startLegal_out (k : BitVec 9) (len : Nat) (s : State) : (startLegal k len s).out = [] := rfl
@[simp] theorem startLegal_phase (k : BitVec 9) (len : Nat) (s : State) : (startLegal k len s).phase = .run := rfl
@[simp] theorem startLegal_err (k : BitVec 9) (len : Nat) (s : State) : (startLegal k len s).err = .none := rfl
@[simp] theorem startLegal_errInfo (k : BitVec 9) (len : Nat) (s : State) : (startLegal k len s).errInfo = s.unspecified.errInfo := rfl
@[simp] theorem startLegal_warnLog (k : BitVec 9) (len : Nat) (s : State) : (startLegal k len s).warnLog = [] := rfl
@[simp] theorem startLegal_inMem (k : BitVec 9) (len : Nat) (s : State) : (startLegal k len s).inMem = s.inMem := rfl
@[simp] theorem startLegal_dictCap (k : BitVec 9) (len : Nat) (s : State) : (startLegal k len s).dictCap = s.dictCap := rfl
@[simp] theorem startLegal_host (k : BitVec 9) (len : Nat) (s : State) : (startLegal k len s).host = s.host := rfl
@[simp] theorem startLegal_free (k : BitVec 9) (len : Nat) (s : State) : (startLegal k len s).free = s.free + 1 := rfl

/-! ## startIllegal (R61) -/

@[simp] theorem startIllegal_k (k : BitVec 9) (len : Nat) (s : State) : (startIllegal k len s).k = k := rfl
@[simp] theorem startIllegal_len (k : BitVec 9) (len : Nat) (s : State) : (startIllegal k len s).len = len := rfl
@[simp] theorem startIllegal_mcs (k : BitVec 9) (len : Nat) (s : State) : (startIllegal k len s).mcs = s.mcs := rfl
@[simp] theorem startIllegal_bp (k : BitVec 9) (len : Nat) (s : State) : (startIllegal k len s).bp = s.bp := rfl
@[simp] theorem startIllegal_off (k : BitVec 9) (len : Nat) (s : State) : (startIllegal k len s).off = s.off := rfl
@[simp] theorem startIllegal_width (k : BitVec 9) (len : Nat) (s : State) : (startIllegal k len s).width = s.width := rfl
@[simp] theorem startIllegal_code (k : BitVec 9) (len : Nat) (s : State) : (startIllegal k len s).code = s.code := rfl
@[simp] theorem startIllegal_ncodes (k : BitVec 9) (len : Nat) (s : State) : (startIllegal k len s).ncodes = s.ncodes := rfl
@[simp] theorem startIllegal_dict (k : BitVec 9) (len : Nat) (s : State) : (startIllegal k len s).dict = s.dict := rfl
@[simp] theorem startIllegal_orig (k : BitVec 9) (len : Nat) (s : State) : (startIllegal k len s).orig = s.orig := rfl
@[simp] theorem startIllegal_prev (k : BitVec 9) (len : Nat) (s : State) : (startIllegal k len s).prev = s.prev := rfl
@[simp] theorem startIllegal_out (k : BitVec 9) (len : Nat) (s : State) : (startIllegal k len s).out = [] := rfl
@[simp] theorem startIllegal_phase (k : BitVec 9) (len : Nat) (s : State) : (startIllegal k len s).phase = .fault := rfl
@[simp] theorem startIllegal_err (k : BitVec 9) (len : Nat) (s : State) : (startIllegal k len s).err = .badConfig := rfl
@[simp] theorem startIllegal_errInfo (k : BitVec 9) (len : Nat) (s : State) : (startIllegal k len s).errInfo = recordConfig k s.unspecified.errInfo := rfl
@[simp] theorem startIllegal_warnLog (k : BitVec 9) (len : Nat) (s : State) : (startIllegal k len s).warnLog = [] := rfl
@[simp] theorem startIllegal_inMem (k : BitVec 9) (len : Nat) (s : State) : (startIllegal k len s).inMem = s.inMem := rfl
@[simp] theorem startIllegal_dictCap (k : BitVec 9) (len : Nat) (s : State) : (startIllegal k len s).dictCap = s.dictCap := rfl
@[simp] theorem startIllegal_host (k : BitVec 9) (len : Nat) (s : State) : (startIllegal k len s).host = s.host := rfl
@[simp] theorem startIllegal_free (k : BitVec 9) (len : Nat) (s : State) : (startIllegal k len s).free = s.free + 1 := rfl

/-! ## SIZE after an update -/

@[simp] theorem raise_size (e : ErrCode) (r : ErrInfo → ErrInfo) (s : State) : (raise e r s).size = s.size := rfl
@[simp] theorem warn_size (w : WarnKind) (c : Code) (s : State) : (warn w c s).size = s.size := rfl
@[simp] theorem emit_size (p : Phrase) (s : State) : (emit p s).size = s.size := rfl
@[simp] theorem setPrev_size (p : Phrase) (s : State) : (setPrev p s).size = s.size := rfl
@[simp] theorem clearPrev_size (s : State) : (clearPrev s).size = s.size := rfl
@[simp] theorem finish_size (s : State) : (finish s).size = s.size := rfl
@[simp] theorem advance_size (idx : Code) (w : Nat) (s : State) : (advance idx w s).size = s.size := rfl
@[simp] theorem pushEntry_size (p : Phrase) (s : State) : (pushEntry p s).size = s.size + 1 := by
  simp [State.size]

end Sys2Proof.Machine
end

