-- ==== Sys2Proof/Laws/Ops.lean ====
section
/-! SUPPORT. What each shared operation can do, said once: cite these and do not unfold the operation. -/

namespace Sys2Proof.Machine

/-! ## Views -/

theorem size_eq_length (s : State) : s.size = s.dict.length := rfl

@[simp] theorem ctx_k (s : State) : s.ctx.k = s.k := rfl

@[simp] theorem ctx_size (s : State) : s.ctx.size = s.size := rfl

/-! ## How a statement ends -/

@[simp] theorem andThen_cont (s : State) (f : State → Flow) : (Flow.cont s).andThen f = f s := rfl

@[simp] theorem andThen_raised (s : State) (f : State → Flow) : (Flow.raised s).andThen f = .raised s := rfl

@[simp] theorem andThen_stuck (r : Fault) (f : State → Flow) : (Flow.stuck r).andThen f = .stuck r := rfl

@[simp] theorem outcome_cont (s : State) : (Flow.cont s).outcome = .next s := rfl

@[simp] theorem outcome_raised (s : State) : (Flow.raised s).outcome = .next s := rfl

@[simp] theorem outcome_stuck (f : Fault) : (Flow.stuck f).outcome = .fault f := rfl

/-- A next state comes of a statement that went on or that raised. -/
theorem outcome_next {w : Flow} {t : State} (h : w.outcome = .next t) : w = .cont t ∨ w = .raised t := by
  cases w <;> simp_all

/-! ## The dictionary (R76 to R84) -/

theorem dictInit_length (k : BitVec 9) : (dictInit k).length = k.toNat + 2 := by
  simp [dictInit]

/-- The base entries have at most one index (R82). -/
theorem dictInit_length_le {k : BitVec 9} {p : Phrase} (h : p ∈ dictInit k) : p.length ≤ 1 := by
  simp only [dictInit, List.mem_append, List.mem_map] at h
  rcases h with ⟨i, _, rfl⟩ | h
  · simp
  · simp_all

theorem dictAppend_of_full {p : Phrase} {s : State} (h : s.size = s.dictCap) :
    dictAppend p s = .raised (raise .dictFull (recordCode s) s) :=
  if_pos h

theorem dictAppend_of_room {p : Phrase} {s : State} (h : s.size ≠ s.dictCap) :
    dictAppend p s = .cont (pushEntry p s) :=
  if_neg h

/-- DictAppend raises DICT_FULL or appends (R83, R84). -/
theorem dictAppend_cases (p : Phrase) (s : State) :
    (s.size = s.dictCap ∧ dictAppend p s = .raised (raise .dictFull (recordCode s) s)) ∨
      (s.size ≠ s.dictCap ∧ dictAppend p s = .cont (pushEntry p s)) := by
  by_cases h : s.size = s.dictCap
  · exact .inl ⟨h, dictAppend_of_full h⟩
  · exact .inr ⟨h, dictAppend_of_room h⟩

/-- LEARN with no previous phrase does nothing (R92: the test PREV_VALID = 1). -/
theorem learn_of_none {x : Byte} {s : State} (h : s.prev = none) : learn x s = .cont s := by
  simp [learn, h]

theorem learn_of_some {x : Byte} {s : State} {q : Phrase} (h : s.prev = some q) :
    learn x s = learnCandidate (q ++ [x]) s := by
  simp [learn, h]

/-- LEARN leaves the state, or is a DictAppend of the previous phrase and one index (R79). -/
theorem learn_cases (x : Byte) (s : State) :
    learn x s = .cont s ∨ ∃ q, s.prev = some q ∧ learn x s = dictAppend (q ++ [x]) s := by
  cases h : s.prev with
  | none => exact .inl (learn_of_none h)
  | some q =>
    rw [learn_of_some h, learnCandidate]
    split
    · exact .inl rfl
    · exact .inr ⟨q, rfl, rfl⟩

/-! ## The operand forms (R73, R78, R94) -/

theorem withPhrase_of_some {s : State} {c : Nat} {x : Byte} {xs : Phrase} {use : Phrase → Byte → Flow}
    (h : s.dict[c]? = some (x :: xs)) : withPhrase s c use = use (x :: xs) x := by
  simp [withPhrase, State.dictRead, h]

theorem withImplied_of_none {s : State} {use : Phrase → Flow} (h : s.prev = none) :
    withImplied s use = .raised (raise .noPrefix (recordCode s) s) := by
  simp [withImplied, h]

theorem withImplied_of_some {s : State} {q : Phrase} {use : Phrase → Flow} (h : s.prev = some q) (hq : q ≠ []) :
    withImplied s use = use (q ++ q.take 1) := by
  cases q with
  | nil => exact absurd rfl hq
  | cons x xs => simp [withImplied, h]

/-! ## The statements the known codes share (R92, R93) -/

/-- The phrase is read and emitted; then nothing is learned, or an entry is appended, or the dictionary is full. -/
theorem performKnown_cases (c : Nat) (s : State) :
    (∃ f, performKnown c s = .stuck f) ∨
      ∃ x xs, s.dict[c]? = some (x :: xs) ∧
        (performKnown c s = .cont (setPrev (x :: xs) (emit (x :: xs) s)) ∨
          ∃ q, s.prev = some q ∧
            ((s.size ≠ s.dictCap ∧ performKnown c s =
                .cont (setPrev (x :: xs) (pushEntry (q ++ [x]) (emit (x :: xs) s)))) ∨
              (s.size = s.dictCap ∧ performKnown c s = .raised
                (raise .dictFull (recordCode (emit (x :: xs) s)) (emit (x :: xs) s))))) := by
  rcases h : s.dict[c]? with _ | _ | ⟨x, xs⟩
  · exact .inl ⟨.dictReadAbsent, by simp [performKnown, withPhrase, State.dictRead, h]⟩
  · exact .inl ⟨.emptyPhrase, by simp [performKnown, withPhrase, State.dictRead, h]⟩
  · refine .inr ⟨x, xs, rfl, ?_⟩
    rw [performKnown, withPhrase_of_some h]
    rcases learn_cases x (emit (x :: xs) s) with e | ⟨q, hq, e⟩
    · exact .inl (by rw [e, andThen_cont])
    · refine .inr ⟨q, hq, ?_⟩
      rcases dictAppend_cases (q ++ [x]) (emit (x :: xs) s) with ⟨hs, d⟩ | ⟨hs, d⟩
      · exact .inr ⟨hs, by rw [e, d, andThen_raised]⟩
      · exact .inl ⟨hs, by rw [e, d, andThen_cont]⟩

/-! ## The statements the absent codes share (R94, R95, R96) -/

/-- No previous phrase; or the phrase is emitted and appended; or it is emitted and the dictionary is full. -/
theorem performImplied_cases (s : State) :
    performImplied s = .stuck .emptyPhrase ∨
      (s.prev = none ∧ performImplied s = .raised (raise .noPrefix (recordCode s) s)) ∨
      ∃ q, s.prev = some q ∧ q ≠ [] ∧
        ((s.size ≠ s.dictCap ∧ performImplied s = .cont
            (setPrev (q ++ q.take 1) (pushEntry (q ++ q.take 1) (emit (q ++ q.take 1) s)))) ∨
          (s.size = s.dictCap ∧ performImplied s = .raised
            (raise .dictFull (recordCode (emit (q ++ q.take 1) s)) (emit (q ++ q.take 1) s)))) := by
  rcases h : s.prev with _ | _ | ⟨x, xs⟩
  · exact .inr (.inl ⟨rfl, withImplied_of_none h⟩)
  · exact .inl (by simp [performImplied, withImplied, h])
  · refine .inr (.inr ⟨x :: xs, rfl, by simp, ?_⟩)
    rw [performImplied, withImplied_of_some h (by simp)]
    rcases dictAppend_cases ((x :: xs) ++ (x :: xs).take 1) (emit ((x :: xs) ++ (x :: xs).take 1) s) with
      ⟨hs, d⟩ | ⟨hs, d⟩
    · exact .inr ⟨hs, by rw [d, andThen_raised]⟩
    · exact .inl ⟨hs, by rw [d, andThen_cont]⟩

/-! ## EXTRACT (R73, R75) -/

theorem widthOk_iff (w : Nat) : widthOk w = true ↔ 2 ≤ w ∧ w ≤ 16 := by
  simp [widthOk]

/-- Too few bytes are left: truncated (R75). -/
theorem decodeWindow_of_lt {ctx : CodeCtx} {off : BitVec 3} {avail : Nat} {win : BitVec 24}
    (hw : widthOk (codeWidth ctx.size) = true) (h : avail < codeNeed off (codeWidth ctx.size)) :
    decodeWindow ctx off avail win = .truncated := by
  simp [decodeWindow, hw, h]

/-- The bytes that hold the code are there: the window's value and its class (R73). -/
theorem decodeWindow_of_le {ctx : CodeCtx} {off : BitVec 3} {avail : Nat} {win : BitVec 24}
    (hw : widthOk (codeWidth ctx.size) = true) (h : codeNeed off (codeWidth ctx.size) ≤ avail) :
    decodeWindow ctx off avail win =
      .code (classify ctx (codeValue win off (codeWidth ctx.size))) (codeValue win off (codeWidth ctx.size))
        (codeWidth ctx.size) := by
  simp [decodeWindow, hw, Nat.not_lt.mpr h]

/-- A whole code comes of a format's width, with the bytes that hold it present. -/
theorem decodeWindow_code {ctx : CodeCtx} {off : BitVec 3} {avail : Nat} {win : BitVec 24} {i : Instr} {idx : Code}
    {w : Nat} (h : decodeWindow ctx off avail win = .code i idx w) :
    w = codeWidth ctx.size ∧ widthOk w = true ∧ codeNeed off w ≤ avail ∧ idx = codeValue win off w ∧
      i = classify ctx idx := by
  simp only [decodeWindow] at h
  split at h
  · split at h
    · cases h
    · cases h
      exact ⟨rfl, ‹_›, by omega, rfl, rfl⟩
  · cases h

/-- A code that EXTRACT cuts: what the decoder read, and the position moved past it. -/
theorem extract_code {s t : State} {i : Instr} (h : extract s = .code i t) :
    ∃ idx w, decodeWindow s.ctx s.off (s.len - s.bp) s.win = .code i idx w ∧ t = advance idx w s := by
  unfold extract at h
  split at h
  · rename_i j idx w hd
    cases h
    exact ⟨idx, w, hd, rfl⟩
  · cases h
  · cases h

/-- A truncated code has raised its fault. -/
theorem extract_truncated {s t : State} (h : extract s = .truncated t) :
    decodeWindow s.ctx s.off (s.len - s.bp) s.win = .truncated ∧ t = raiseTruncated s := by
  unfold extract at h
  split at h
  · cases h
  · cases h
    exact ⟨‹_›, rfl⟩
  · cases h

/-- Another host script is nothing to EXTRACT. -/
theorem decodeWindow_host (s : State) (rest : List HostTurn) :
    decodeWindow { s with host := rest }.ctx { s with host := rest }.off
        ({ s with host := rest }.len - { s with host := rest }.bp) { s with host := rest }.win =
      decodeWindow s.ctx s.off (s.len - s.bp) s.win := rfl

theorem extract_of_code {s : State} {i : Instr} {idx : Code} {w : Nat}
    (h : decodeWindow s.ctx s.off (s.len - s.bp) s.win = .code i idx w) : extract s = .code i (advance idx w s) := by
  unfold extract
  rw [h]

theorem extract_of_truncated {s : State} (h : decodeWindow s.ctx s.off (s.len - s.bp) s.win = .truncated) :
    extract s = .truncated (raiseTruncated s) := by
  unfold extract
  rw [h]

/-! ## A step -/

theorem step_nil {s : State} (h : s.host = []) : step s = stepBlock s := by
  unfold step
  rw [h]

theorem step_pass {s : State} {rest : List HostTurn} (h : s.host = .pass :: rest) :
    step s = stepBlock { s with host := rest } := by
  unfold step
  rw [h]

theorem step_wait {s : State} {rest : List HostTurn} (h : s.host = .wait :: rest) :
    step s = .next { s with host := rest } := by
  unfold step
  rw [h]

theorem step_writeIn {s : State} {a : Nat} {b : Byte} {rest : List HostTurn} (h : s.host = .writeIn a b :: rest) :
    step s = writeInCommand a b { s with host := rest } := by
  unfold step
  rw [h]

theorem step_reset {s : State} {rest : List HostTurn} (h : s.host = .reset :: rest) :
    step s = .next (resetCommand { s with host := rest }) := by
  unfold step
  rw [h]

theorem step_start {s : State} {k : BitVec 9} {len : Nat} {rest : List HostTurn} (h : s.host = .start k len :: rest) :
    step s = startCommand k len { s with host := rest } := by
  unfold step
  rw [h]

theorem stepBlock_run {s : State} (h : s.phase = .run) : stepBlock s = stepCode s :=
  if_pos h

theorem stepBlock_quiescent {s : State} (h : s.phase ≠ .run) : stepBlock s = .next s :=
  if_neg h

theorem stepCode_of_code {s : State} {i : Instr} {idx : Code} {w : Nat}
    (h : decodeWindow s.ctx s.off (s.len - s.bp) s.win = .code i idx w) : stepCode s = exec i (advance idx w s) := by
  unfold stepCode
  rw [extract_of_code h]

theorem stepCode_of_truncated {s : State} (h : decodeWindow s.ctx s.off (s.len - s.bp) s.win = .truncated) :
    stepCode s = .next (raiseTruncated s) := by
  unfold stepCode
  rw [extract_of_truncated h]

theorem startCommand_run {k : BitVec 9} {len : Nat} {s : State} (h : s.phase = .run) :
    startCommand k len s = .next s :=
  if_pos h

theorem startCommand_legal {k : BitVec 9} {len : Nat} {s : State} (h : s.phase ≠ .run) (hk : legalK k = true)
    (hc : k.toNat + 2 ≤ s.dictCap) : startCommand k len s = .next (startLegal k len s) := by
  rw [startCommand, if_neg h, if_pos hk, if_pos hc]

theorem startCommand_illegal {k : BitVec 9} {len : Nat} {s : State} (h : s.phase ≠ .run) (hk : legalK k = false) :
    startCommand k len s = .next (startIllegal k len s) := by
  rw [startCommand, if_neg h, if_neg (by simp [hk])]

theorem startCommand_small {k : BitVec 9} {len : Nat} {s : State} (h : s.phase ≠ .run) (hk : legalK k = true)
    (hc : s.dictCap < k.toNat + 2) : startCommand k len s = .refused .dictCapBelowBase := by
  rw [startCommand, if_neg h, if_pos hk, if_neg (by omega)]

/-- A STEP that answers a next state performed a whole code or raised TRUNCATED_LZW (R63). -/
theorem stepCode_next {s t : State} (h : stepCode s = .next t) :
    (∃ i idx w, decodeWindow s.ctx s.off (s.len - s.bp) s.win = .code i idx w ∧ exec i (advance idx w s) = .next t) ∨
      (decodeWindow s.ctx s.off (s.len - s.bp) s.win = .truncated ∧ t = raiseTruncated s) := by
  unfold stepCode at h
  split at h
  · rename_i i u he
    obtain ⟨idx, w, hd, rfl⟩ := extract_code he
    exact .inl ⟨i, idx, w, hd, h⟩
  · rename_i u he
    obtain ⟨hd, rfl⟩ := extract_truncated he
    cases h
    exact .inr ⟨hd, rfl⟩
  · cases h

/-- What a step that answers a next state did: the block's own STEP, holding outside RUN, waiting, or a command. -/
theorem step_next {s t : State} (h : step s = .next t) :
    (∃ u, (s.host = [] ∧ u = s ∨ ∃ rest, s.host = .pass :: rest ∧ u = { s with host := rest }) ∧
        (u.phase = .run ∧ stepCode u = .next t ∨ u.phase ≠ .run ∧ t = u)) ∨
      (∃ rest, s.host = .wait :: rest ∧ t = { s with host := rest }) ∨
      (∃ a b rest, s.host = .writeIn a b :: rest ∧ s.phase ≠ .run ∧
        t = { s with host := rest, inMem := Memory.write s.inMem a b }) ∨
      (∃ rest, s.host = .reset :: rest ∧ t = resetCommand { s with host := rest }) ∨
      (∃ k len rest, s.host = .start k len :: rest ∧
        (s.phase = .run ∧ t = { s with host := rest } ∨
          s.phase ≠ .run ∧ legalK k = true ∧ k.toNat + 2 ≤ s.dictCap ∧ t = startLegal k len { s with host := rest } ∨
          s.phase ≠ .run ∧ legalK k = false ∧ t = startIllegal k len { s with host := rest })) := by
  have block : ∀ u : State, stepBlock u = .next t →
      (u.phase = .run ∧ stepCode u = .next t ∨ u.phase ≠ .run ∧ t = u) := by
    intro u hu
    unfold stepBlock at hu
    split at hu
    · exact .inl ⟨‹_›, hu⟩
    · cases hu
      exact .inr ⟨‹_›, rfl⟩
  unfold step at h
  split at h
  · rename_i hh
    exact .inl ⟨s, .inl ⟨hh, rfl⟩, block s h⟩
  · rename_i rest hh
    exact .inl ⟨_, .inr ⟨rest, hh, rfl⟩, block _ h⟩
  · rename_i rest hh
    cases h
    exact .inr (.inl ⟨rest, hh, rfl⟩)
  · rename_i a b rest hh
    unfold writeInCommand at h
    split at h
    · cases h
    · cases h
      exact .inr (.inr (.inl ⟨a, b, rest, hh, ‹_›, rfl⟩))
  · rename_i rest hh
    cases h
    exact .inr (.inr (.inr (.inl ⟨rest, hh, rfl⟩)))
  · rename_i k len rest hh
    refine .inr (.inr (.inr (.inr ⟨k, len, rest, hh, ?_⟩)))
    unfold startCommand at h
    split at h
    · cases h
      exact .inl ⟨‹_›, rfl⟩
    · split at h
      · split at h
        · cases h
          exact .inr (.inl ⟨‹_›, ‹_›, ‹_›, rfl⟩)
        · cases h
      · cases h
        exact .inr (.inr ⟨‹_›, by simp_all, rfl⟩)

end Sys2Proof.Machine
end

