-- ==== Sys2Proof/Laws/Observe.lean ====
section
/-! SUPPORT. What the two event ports carry: what a statement appends to OUT and to WARN_LOG (rules R25, R58, R106, R108). -/

namespace Sys2Proof.Machine

theorem portEvents_out_of_append {s t : State} {l : List Byte} (h : t.out = s.out ++ l) : (portEvents s t).out = l := by
  rw [portEvents, h, List.drop_left]

theorem portEvents_warn_of_append {s t : State} {l : List WarnRec} (h : t.warnLog = s.warnLog ++ l) :
    (portEvents s t).warn = l := by
  rw [portEvents, h, List.drop_left]

/-- Emit of a phrase is one transfer for each index (R89). -/
@[simp] theorem portEvents_emit (p : Phrase) (s : State) : portEvents s (emit p s) = { out := p, warn := [] } := by
  simp [portEvents, emit]

/-- Warn is one event, with the record it appends (R106). -/
@[simp] theorem portEvents_warn (kind : WarnKind) (c : Code) (s : State) :
    portEvents s (warn kind c s) =
      { out := [], warn := [{ kind := kind, code := c, size := s.size, ncodes := s.ncodes }] } := by
  simp [portEvents, warn]

/-- A fault is no event (R104). -/
@[simp] theorem portEvents_raise (e : ErrCode) (r : ErrInfo → ErrInfo) (s : State) :
    portEvents s (raise e r s) = { out := [], warn := [] } := by
  simp [portEvents, raise]

/-- A step that leaves OUT and WARN_LOG empty, as both commands do (R59 to R61), has no event. -/
theorem portEvents_of_empty {s t : State} (ho : t.out = []) (hw : t.warnLog = []) :
    portEvents s t = { out := [], warn := [] } := by
  simp [portEvents, ho, hw]

/-- A step that leaves OUT and WARN_LOG as they are has no event. -/
theorem portEvents_of_eq {s t : State} (ho : t.out = s.out) (hw : t.warnLog = s.warnLog) :
    portEvents s t = { out := [], warn := [] } := by
  simp [portEvents, ho, hw]

end Sys2Proof.Machine
end

