-- ==== Sys2Proof/Laws/PerInstr.lean ====
section
/-! SUPPORT. A statement about every code as syntax, made per constructor: in a context a run can have, a code that can
be written there is classified as itself (rule R53). -/

namespace Sys2Proof.Laws.ClassOfValue

/-- The tests of R53 give back the class and the operand of every well-formed code from its value. -/
def Statement (i : Instr) : Prop :=
  ∀ ctx : CodeCtx, ctx.wellFormed = true → i.wellFormed ctx = true →
    classify ctx (BitVec.ofNat 16 (codeIdx ctx i)) = i

/-- A well-formed code's value fits CODE (R19, R48). -/
theorem codeIdx_lt {ctx : CodeCtx} {i : Instr} (hc : ctx.wellFormed = true) (hi : i.wellFormed ctx = true) :
    codeIdx ctx i < 2 ^ 16 := by
  simp only [CodeCtx.wellFormed, widthOk, Bool.and_eq_true, decide_eq_true_eq] at hc
  simp only [Instr.wellFormed, Instr.fits, Bool.and_eq_true, decide_eq_true_eq] at hi
  exact lt_of_lt_of_le hi.2 (Nat.pow_le_pow_right (by omega) hc.2.2)

theorem toNat_codeIdx {ctx : CodeCtx} {i : Instr} (hc : ctx.wellFormed = true) (hi : i.wellFormed ctx = true) :
    (BitVec.ofNat 16 (codeIdx ctx i)).toNat = codeIdx ctx i := by
  rw [BitVec.toNat_ofNat, Nat.mod_eq_of_lt (codeIdx_lt hc hi)]

theorem size_ge {ctx : CodeCtx} (hc : ctx.wellFormed = true) : ctx.k.toNat + 2 ≤ ctx.size := by
  simp only [CodeCtx.wellFormed, Bool.and_eq_true, decide_eq_true_eq] at hc
  exact hc.1

theorem inClass_of_wellFormed {ctx : CodeCtx} {i : Instr} (hi : i.wellFormed ctx = true) : i.inClass ctx = true := by
  simp only [Instr.wellFormed, Bool.and_eq_true] at hi
  exact hi.1

theorem clr : Statement .clr := fun ctx hc hi => by
  have h := toNat_codeIdx hc hi
  simp only [codeIdx] at h
  simp only [classify, codeIdx, h, if_true]

theorem eoi : Statement .eoi := fun ctx hc hi => by
  have h := toNat_codeIdx hc hi
  simp only [codeIdx] at h
  simp only [classify, codeIdx, h, if_neg (Nat.succ_ne_self _), if_true]

theorem lit (n : Code) : Statement (.lit n) := fun ctx _ hi => by
  have h := inClass_of_wellFormed hi
  simp only [Instr.inClass, decide_eq_true_eq] at h
  simp [classify, codeIdx, h, Nat.ne_of_lt h, Nat.ne_of_lt (Nat.lt_succ_of_lt h)]

theorem ref (c : Code) : Statement (.ref c) := fun ctx _ hi => by
  have h := inClass_of_wellFormed hi
  simp only [Instr.inClass, decide_eq_true_eq] at h
  have h1 : c.toNat ≠ ctx.k.toNat := by omega
  have h2 : c.toNat ≠ ctx.k.toNat + 1 := by omega
  have h3 : ¬ c.toNat < ctx.k.toNat := by omega
  simp [classify, codeIdx, h1, h2, h3, h.2]

theorem imp : Statement .imp := fun ctx hc hi => by
  have h := toNat_codeIdx hc hi
  have hs := size_ge hc
  simp only [codeIdx] at h
  have h1 : ctx.size ≠ ctx.k.toNat := by omega
  have h2 : ctx.size ≠ ctx.k.toNat + 1 := by omega
  have h3 : ¬ ctx.size < ctx.k.toNat := by omega
  simp only [classify, codeIdx, h, if_neg h1, if_neg h2, if_neg h3, if_neg (Nat.lt_irrefl _), if_true]

theorem byd (c : Code) : Statement (.byd c) := fun ctx hc hi => by
  have h := inClass_of_wellFormed hi
  have hs := size_ge hc
  simp only [Instr.inClass, decide_eq_true_eq] at h
  have h1 : c.toNat ≠ ctx.k.toNat := by omega
  have h2 : c.toNat ≠ ctx.k.toNat + 1 := by omega
  have h3 : ¬ c.toNat < ctx.k.toNat := by omega
  have h4 : ¬ c.toNat < ctx.size := by omega
  have h5 : c.toNat ≠ ctx.size := by omega
  simp [classify, codeIdx, h1, h2, h3, h4, h5]

end Sys2Proof.Laws.ClassOfValue
end

