-- ==== Sys2Proof/Laws/Run.lean ====
section
/-! SUPPORT. Runs of the machine, one step at a time. -/

namespace Sys2Proof.Machine

theorem run_zero (s : State) : core.run 0 s = .next s := rfl

/-- A run goes on from the state its first step answers. -/
theorem run_succ_next {n : Nat} {s u : State} (h : step s = .next u) : core.run (n + 1) s = core.run n u := by
  have h' : core.step s = .next u := h
  simp [Host.Core.run, h']

theorem run_succ_fault {n : Nat} {s : State} {f : Fault} (h : step s = .fault f) :
    core.run (n + 1) s = .fault f := by
  have h' : core.step s = .fault f := h
  simp [Host.Core.run, h']

theorem run_succ_refused {n : Nat} {s : State} {r : Refusal} (h : step s = .refused r) :
    core.run (n + 1) s = .refused r := by
  have h' : core.step s = .refused r := h
  simp [Host.Core.run, h']

/-- Outside RUN, with nothing more from the host, every number of steps leaves the state (R26, R116). -/
theorem run_quiescent (n : Nat) {s : State} (hh : s.host = []) (h : s.phase ≠ .run) : core.run n s = .next s := by
  induction n with
  | zero => rfl
  | succ n ih => rw [run_succ_next ((step_nil hh).trans (stepBlock_quiescent h)), ih]

end Sys2Proof.Machine
end

