-- ==== Sys2Proof/Tests/Slice0.lean ====
section
/-! SUPPORT. The model's own tests: what WellFormed refuses, words written out from the spec's encodings, one step of each
class of code (vectors V-C, V-F, V-L, V-D of 95_test_vectors.md), and for each statement a state or operands that meet
its hypotheses together. -/

namespace Sys2Proof.Tests

open Sys2Proof.Machine Sys2Proof.Safety

/-! ## Helpers -/

/-- The outcome is a next state of which `p` holds. -/
def onNext (o : Host.Outcome State Fault Refusal) (p : State → Bool) : Bool :=
  match o with
  | .next t => p t
  | .fault _ => false
  | .refused _ => false

/-- The extraction is a code of which `p` holds. -/
def onCode (x : Extracted) (p : Instr → State → Bool) : Bool :=
  match x with
  | .code i t => p i t
  | .truncated _ => false
  | .noFormat => false

/-- The extraction raised TRUNCATED_LZW and `p` holds of what it left. -/
def onTruncated (x : Extracted) (p : State → Bool) : Bool :=
  match x with
  | .code _ _ => false
  | .truncated t => p t
  | .noFormat => false

/-- A decode in progress: K, the learned phrases, the previous phrase, OUT, DICT_CAP, and the bytes of IN from byte 1 on,
of which bit 0 is the next code's first. -/
def running (k : BitVec 9) (learned : List Phrase) (prev : Option Phrase) (out : List Byte) (cap : Nat)
    (bytes : List Byte) : State :=
  { State.reset with
    phase := .run
    k := k, orig := k + 2#9
    dict := dictInit k ++ learned
    prev := prev, out := out, dictCap := cap
    inMem := Memory.writeBytes [] 1 bytes
    len := 1 + bytes.length, bp := 1 }

/-- K = 4 at its start; the next codes are CLR, CLR, EOI (V-S3). -/
def atStart : State := running 4#9 [] none [] 65536 [0x64#8, 0x01#8]

/-- K = 4 after LIT 2 (V-C2, V-C11); the next code is 7/3, a BYD. -/
def afterTwo : State := running 4#9 [] (some [2#8]) [2#8] 65536 [0x07#8]

/-- K = 4 with DICT[6] = [0, 1] and the previous phrase [1] (V-C3); the next code is REF 6. -/
def afterPair : State := running 4#9 [[0#8, 1#8]] (some [1#8]) [0#8, 1#8] 65536 [0x06#8]

/-- K = 2, DICT_CAP = 5 and SIZE = 5 (V-C16, V-F4); the next code is IMP. -/
def atCapacity : State := running 2#9 [[0#8, 1#8]] (some [1#8]) [0#8, 1#8] 5 [0x05#8]

/-- K = 4 at its start; the next code is 7/3, a BYD with no previous phrase (V-C13, V-F2). -/
def atNoPrefix : State := running 4#9 [] none [] 65536 [0x07#8]

/-- Program P1 before its step 3: the next code is IMP, at bit 6 of byte 1. -/
def inProgramP1 : State :=
  { running 4#9 [] (some [1#8]) [1#8] 65536 [0x8C#8, 0xAD#8, 0x2C#8] with off := 6#3, ncodes := 2 }

/-- Program P4 before its step 6: bit 7 of byte 2, with LEN = 3 and SIZE = 9. -/
def inProgramP4 : State :=
  { running 4#9 [[1#8, 1#8], [1#8, 1#8, 1#8], [1#8, 1#8, 2#8]] (some [2#8]) [1#8, 1#8, 1#8, 1#8, 1#8, 2#8] 65536
      [0x8C#8, 0xAD#8] with bp := 2, off := 7#3, ncodes := 5 }

/-! ## WellFormed refuses an ill-formed term for each of its checks -/

theorem test_wf_lit_needs_base_range : (Instr.lit 4#16).wellFormed { k := 4#9, size := 7 } = false := by decide

theorem test_wf_ref_not_reserved : (Instr.ref 5#16).wellFormed { k := 4#9, size := 7 } = false := by decide

theorem test_wf_ref_not_size : (Instr.ref 7#16).wellFormed { k := 4#9, size := 7 } = false := by decide

theorem test_wf_byd_not_size : (Instr.byd 6#16).wellFormed { k := 4#9, size := 6 } = false := by decide

/-- V-C14: at SIZE 8 the largest 3-bit value is 7, so neither IMP nor BYD can be written. -/
theorem test_wf_value_must_fit :
    Instr.imp.wellFormed { k := 4#9, size := 8 } = false ∧
      (Instr.byd 9#16).wellFormed { k := 4#9, size := 8 } = false := by decide

theorem test_wf_context_size_from_reserved : CodeCtx.wellFormed { k := 4#9, size := 5 } = false := by decide

/-- R72: at size 65537 the width would be 17. -/
theorem test_wf_context_width : CodeCtx.wellFormed { k := 4#9, size := 65537 } = false := by decide

theorem test_wf_accepts :
    CodeCtx.wellFormed { k := 4#9, size := 7 } = true ∧ (Instr.lit 3#16).wellFormed { k := 4#9, size := 7 } = true ∧
      (Instr.ref 6#16).wellFormed { k := 4#9, size := 7 } = true ∧
      Instr.clr.wellFormed { k := 4#9, size := 7 } = true ∧ Instr.eoi.wellFormed { k := 4#9, size := 7 } = true ∧
      Instr.imp.wellFormed { k := 4#9, size := 7 } = true ∧
      (Instr.byd 7#16).wellFormed { k := 4#9, size := 6 } = true := by decide

/-! ## Decoding: words written out bit by bit (R35, R52, R53; 30_encoding.md) -/

/-- CLR at K = 256, 9 bits 1_0000_0000 (V-X16, program P2's first code): byte 1 holds bits 0 to 7. -/
theorem test_decode_clr :
    decodeBytes { k := 256#9, size := 258 } 0#3 [0b00000000#8, 0b00010101#8, 0b00101000#8] = .code .clr 256#16 9 := by
  decide

/-- EOI at K = 4, 4 bits 0101 from bit 4 of the byte (V-S5's last code). -/
theorem test_decode_eoi : decodeBytes { k := 4#9, size := 9 } 4#3 [0b01011101#8] = .code .eoi 5#16 4 := by decide

/-- LIT 1 at K = 4, 3 bits 001 from bit 3 of 0x8C (program P1, code 2). -/
theorem test_decode_lit :
    decodeBytes { k := 4#9, size := 6 } 3#3 [0b10001100#8, 0b10101101#8] = .code (.lit 1#16) 1#16 3 := by decide

/-- REF 259 at K = 256, 9 bits 1_0000_0011 from bit 4 of 0x38 (program P2, code 5). -/
theorem test_decode_ref :
    decodeBytes { k := 256#9, size := 260 } 4#3 [0b00111000#8, 0b11110000#8] = .code (.ref 259#16) 259#16 9 := by
  decide

/-- IMP at K = 4, SIZE = 9, 4 bits 1001 over a byte boundary: bit 7 of 0xAD, bits 0 to 2 of 0x2C (program P1, code 6). -/
theorem test_decode_imp :
    decodeBytes { k := 4#9, size := 9 } 7#3 [0b10101101#8, 0b00101100#8] = .code .imp 9#16 4 := by decide

/-- BYD 7 at K = 4, SIZE = 6, 3 bits 111 from bit 3 of 0xFA (program P5, code 2). -/
theorem test_decode_byd :
    decodeBytes { k := 4#9, size := 6 } 3#3 [0b11111010#8, 0b00001010#8] = .code (.byd 7#16) 7#16 3 := by decide

/-- V-T8: a missing ninth bit is not filled with zero. -/
theorem test_decode_truncated : decodeBytes { k := 256#9, size := 258 } 0#3 [0x01#8] = .truncated := by decide

/-- V-X5, V-X6, V-X13: values cut from the window B5 6A 03. -/
theorem test_extract_values :
    codeValue (windowOf 0xB5#8 0x6A#8 0x03#8) 7#3 12 = 1749#16 ∧
      codeValue (windowOf 0xB5#8 0x6A#8 0x03#8) 7#3 16 = 1749#16 ∧
      codeValue (windowOf 0xB5#8 0x6A#8 0x03#8) 1#3 14 = 13658#16 := by decide

/-- The bytes of program P1, from its codes (R57). -/
theorem test_assemble_p1 :
    assemble 2#8 4#9 [.clr, .lit 1#16, .imp, .ref 6#16, .lit 2#16, .imp, .eoi] = [0x02#8, 0x8C#8, 0xAD#8, 0x2C#8] := by
  decide

/-- The words of the opcode table at K = 2, SIZE = 5, one of each class. -/
theorem test_table_words :
    decodeTableWord 16 0b0000000000000010 = some .clr ∧ decodeTableWord 16 0b0000000000000011 = some .eoi ∧
      decodeTableWord 16 0b0000000000000001 = some (.lit 1#16) ∧
      decodeTableWord 16 0b0000000000000100 = some (.ref 4#16) ∧
      decodeTableWord 16 0b0000000000000101 = some .imp ∧
      decodeTableWord 16 0b1111111111111111 = some (.byd 65535#16) := by decide

/-! ## One step of each class -/

/-- V-C9: CLR at SIZE 9 gives SIZE 6, no previous phrase, OUT kept. -/
theorem test_clr_truncates :
    onNext (exec .clr inProgramP4) (fun t =>
      decide (t.size = 6 ∧ t.prev = none ∧ t.out = inProgramP4.out ∧ t.phase = .run)) = true := by decide

/-- V-C10: CLR at the start changes nothing but the position; its code is 3 bits. -/
theorem test_clr_step :
    onNext (step atStart) (fun t => decide (t.dict = atStart.dict ∧ t.prev = none ∧ t.bp = 1 ∧ t.off = 3#3)) = true := by
  decide

/-- V-C7: EOI as the first code, K = 2, IN = 01 03. -/
theorem test_eoi_first :
    onNext (step (running 2#9 [] none [] 65536 [0x03#8])) (fun t =>
      decide (t.phase = .done ∧ t.out = [] ∧ t.bp = 1 ∧ t.off = 2#3 ∧ t.ncodes = 1)) = true := by decide

/-- V-C8: EOI at K = 256 is 257 at 9 bits, IN = 08 01 01. -/
theorem test_eoi_nine_bits :
    onNext (step (running 256#9 [] none [] 65536 [0x01#8, 0x01#8])) (fun t =>
      decide (t.phase = .done ∧ t.code = 257#16 ∧ t.width = 9#5 ∧ t.bp = 2 ∧ t.off = 1#3)) = true := by decide +kernel

/-- V-C1: the first literal learns nothing. -/
theorem test_lit_first :
    onNext (exec (.lit 2#16) atStart) (fun t =>
      decide (t.out = [2#8] ∧ t.prev = some [2#8] ∧ t.size = 6)) = true := by decide

/-- V-C2: the second one learns [2, 3] at code 6. -/
theorem test_lit_learns :
    onNext (exec (.lit 3#16) afterTwo) (fun t =>
      decide (t.out = [2#8, 3#8] ∧ t.dict[6]? = some [2#8, 3#8] ∧ t.size = 7 ∧ t.prev = some [3#8])) = true := by decide

/-- V-C3. -/
theorem test_ref_learns :
    onNext (step afterPair) (fun t =>
      decide (t.out = [0#8, 1#8, 0#8, 1#8] ∧ t.dict[7]? = some [1#8, 0#8] ∧ t.size = 8 ∧
        t.prev = some [0#8, 1#8])) = true := by decide

/-- V-C4: the same REF again learns [0, 1, 0]; the next width is 4. -/
theorem test_ref_twice :
    onNext (exec (.ref 6#16) (running 4#9 [[0#8, 1#8], [1#8, 0#8]] (some [0#8, 1#8]) [] 65536 [])) (fun t =>
      decide (t.out = [0#8, 1#8] ∧ t.dict[8]? = some [0#8, 1#8, 0#8] ∧ codeWidth t.size = 4)) = true := by decide

/-- V-C5, at program P1's step 3. -/
theorem test_imp_synthesizes :
    onNext (step inProgramP1) (fun t =>
      decide (t.out = [1#8, 1#8, 1#8] ∧ t.dict[6]? = some [1#8, 1#8] ∧ t.size = 7 ∧ t.prev = some [1#8, 1#8] ∧
        t.bp = 2 ∧ t.off = 1#3)) = true := by decide

/-- V-C16, V-F4: at the capacity the Emit comes before DICT_FULL. -/
theorem test_imp_full :
    onNext (step atCapacity) (fun t =>
      decide (t.out = [0#8, 1#8, 1#8, 1#8] ∧ t.phase = .fault ∧ t.err = .dictFull ∧ t.dict = atCapacity.dict ∧
        t.errInfo.code = 5#16 ∧ t.errInfo.size = 5)) = true := by decide

/-- V-C11: BYD 7 at SIZE 6 warns and fills entry 6, not 7. -/
theorem test_byd_recovers :
    onNext (step afterTwo) (fun t =>
      decide (t.out = [2#8, 2#8, 2#8] ∧ t.dict[6]? = some [2#8, 2#8] ∧ t.size = 7 ∧ t.prev = some [2#8, 2#8] ∧
        t.warnLog = [{ kind := .dictCorrupt, code := 7#16, size := 6, ncodes := 1 }])) = true := by decide

/-- V-C13, V-F2: with no previous phrase, one warning, then NO_PREFIX at BP 1, OFF 3. -/
theorem test_byd_no_prefix :
    onNext (step atNoPrefix) (fun t =>
      decide (t.phase = .fault ∧ t.err = .noPrefix ∧ t.out = [] ∧ t.errInfo.bp = 1 ∧ t.errInfo.off = 3#3 ∧
        t.errInfo.ncodes = 1 ∧ t.errInfo.code = 7#16 ∧
        t.warnLog = [{ kind := .dictCorrupt, code := 7#16, size := 6, ncodes := 1 }])) = true := by decide

/-- Program P4, step 6: TRUNCATED_LZW at BP 2, OFF 7, SIZE 9, NCODES 5. -/
theorem test_truncated :
    onNext (step inProgramP4) (fun t =>
      decide (t.phase = .fault ∧ t.err = .truncatedLzw ∧ t.errInfo.bp = 2 ∧ t.errInfo.off = 7#3 ∧
        t.errInfo.size = 9 ∧ t.errInfo.ncodes = 5 ∧ t.out = inProgramP4.out)) = true := by decide

/-- V-L4: START from FAULT inherits nothing. -/
theorem test_start_from_fault :
    onNext (step { inProgramP4 with phase := .fault, err := .truncatedLzw, host := [.start 4#9 3] }) (fun t =>
      decide (t.phase = .run ∧ t.err = .none ∧ t.out = [] ∧ t.size = 6 ∧ t.prev = none ∧ t.bp = 1 ∧ t.off = 0#3 ∧
        t.ncodes = 0 ∧ t.orig = 6#9)) = true := by decide

/-- V-L2: START with K = 3 is BAD_CONFIG, and the spec's number of it is 4. -/
theorem test_start_illegal :
    onNext (step { State.reset with host := [.start 3#9 3] }) (fun t =>
      decide (t.phase = .fault ∧ t.err.num = 4#3 ∧ t.out = [] ∧ t.errInfo.k = 3#9)) = true := by decide

/-- Each word of `test_table_words` is what the first step from reset runs. -/
theorem test_placed_words :
    onNext (step (State.reset.withFetchWord 16 2)) (fun t => decide (t.size = 4 ∧ t.prev = none)) = true ∧
      onNext (step (State.reset.withFetchWord 16 3)) (fun t => decide (t.phase = .done)) = true ∧
      onNext (step (State.reset.withFetchWord 16 1)) (fun t => decide (t.out = [1#8] ∧ t.size = 6)) = true ∧
      onNext (step (State.reset.withFetchWord 16 4)) (fun t => decide (t.out = [0#8, 0#8] ∧ t.size = 6)) = true ∧
      onNext (step (State.reset.withFetchWord 16 5)) (fun t =>
        decide (t.out = [0#8, 0#8] ∧ t.warnCount = 0)) = true ∧
      onNext (step (State.reset.withFetchWord 16 6)) (fun t =>
        decide (t.out = [0#8, 0#8] ∧ t.warnCount = 1)) = true := by decide

/-! ## The states above meet the invariants -/

/-- The dictionary's invariant, for a decode in progress whose learned phrases are as R86 and R87 say. -/
theorem running_dictInv {k : BitVec 9} {learned : List Phrase} {prev : Option Phrase} {out : List Byte} {cap : Nat}
    {bytes : List Byte} (hk : legalK k = true) (ho : (k + 2#9).toNat = k.toNat + 2)
    (hcap : k.toNat + 2 + learned.length ≤ cap)
    (hl : ∀ (i : Nat) (p : Phrase), learned[i]? = some p → 2 ≤ p.length ∧ p.length ≤ i + 2 ∧ BelowK k p)
    (hp : ∀ p, prev = some p → p ∈ dictInit k ++ learned ∧ p ≠ []) (hn : learned ≠ [] → prev ≠ none) :
    DictInv (running k learned prev out cap bytes) where
  kLegal := hk
  origEq := ho
  base := by
    show (dictInit k ++ learned).take (k.toNat + 2) = dictInit k
    rw [← dictInit_length k, List.take_left]
  sizeLe := by
    show (dictInit k ++ learned).length ≤ cap
    rw [List.length_append, dictInit_length]
    exact hcap
  learned := by
    intro c p hc h
    have h' : (dictInit k ++ learned)[c]? = some p := h
    have hc' : k.toNat + 2 ≤ c := hc
    rw [List.getElem?_append_right (by rw [dictInit_length]; exact hc'), dictInit_length] at h'
    obtain ⟨h1, h2, h3⟩ := hl _ p h'
    exact ⟨h1, by show p.length ≤ c - k.toNat; omega, h3⟩
  prevOk := hp
  prevOfLearned := by
    intro h
    refine hn ?_
    rintro rfl
    have h' : k.toNat + 2 < (dictInit k ++ []).length := h
    rw [List.append_nil, dictInit_length] at h'
    exact absurd h' (Nat.lt_irrefl _)

theorem one_learned {k : BitVec 9} {q : Phrase} (hq : 2 ≤ q.length ∧ q.length ≤ 2 ∧ BelowK k q) :
    ∀ (i : Nat) (p : Phrase), [q][i]? = some p → 2 ≤ p.length ∧ p.length ≤ i + 2 ∧ BelowK k p := by
  intro i p h
  cases i with
  | zero =>
    obtain rfl : q = p := by simpa using h
    exact hq
  | succ i => simp at h

theorem atStart_dictInv : DictInv atStart :=
  running_dictInv (by decide) (by decide) (by decide) (by intro i p h; simp at h) (by intro p h; cases h)
    (fun h => absurd rfl h)

theorem afterTwo_dictInv : DictInv afterTwo :=
  running_dictInv (by decide) (by decide) (by decide) (by intro i p h; simp at h)
    (by intro p h; cases h; decide) (fun h => absurd rfl h)

theorem afterPair_dictInv : DictInv afterPair :=
  running_dictInv (by decide) (by decide) (by decide) (one_learned (by decide)) (by intro p h; cases h; decide)
    (fun _ => by decide)

theorem atCapacity_dictInv : DictInv atCapacity :=
  running_dictInv (by decide) (by decide) (by decide) (one_learned (by decide)) (by intro p h; cases h; decide)
    (fun _ => by decide)

theorem atStart_inv : Inv atStart where
  memWf := by decide
  capMax := by decide
  outBelowK := by decide
  errPhase := by decide
  inRun _ := { atStart_dictInv with bpPos := by decide, codesLe := by decide, posLe := by decide }

theorem afterTwo_inv : Inv afterTwo where
  memWf := by decide
  capMax := by decide
  outBelowK := by decide
  errPhase := by decide
  inRun _ := { afterTwo_dictInv with bpPos := by decide, codesLe := by decide, posLe := by decide }

theorem atCapacity_inv : Inv atCapacity where
  memWf := by decide
  capMax := by decide
  outBelowK := by decide
  errPhase := by decide
  inRun _ := { atCapacity_dictInv with bpPos := by decide, codesLe := by decide, posLe := by decide }

/-! ## Witnesses: for each statement with hypotheses, states and operands that meet them, one for each clause -/

/-- V-W: the ends of every row of the width table. -/
theorem witness_WidthOfEverySize : ∀ r ∈ widthRows,
    clog2 r.1 = r.2.2.1 ∧ clog2 r.2.1 = r.2.2.1 ∧ codeWidth r.1 = r.2.2.2.1 ∧ codeWidth r.2.1 = r.2.2.2.1 := by decide

/-- Also for `WidthClampsThirteen`: the sizes on both sides of the clamp. -/
theorem witness_WidthClampsThirteen :
    clog2 4096 = 12 ∧ clog2 4097 = 13 ∧ codeWidth 4097 = 12 ∧ clog2 8192 = 13 ∧ codeWidth 8192 = 12 ∧
      clog2 8193 = 14 ∧ codeWidth 8193 = 14 := by decide

theorem witness_ClogIsLeastExponent :
    clog2 1 ≤ 0 ∧ 1 ≤ 2 ^ 0 ∧ ¬ clog2 513 ≤ 9 ∧ ¬ 513 ≤ 2 ^ 9 ∧ clog2 512 ≤ 9 ∧ 512 ≤ 2 ^ 9 := by decide

/-- V-L1: the first width of every legal K, and the sizes around its change. -/
theorem witness_FirstWidthOfEveryK : ∀ r ∈ firstWidthRows,
    legalK r.1 = true ∧ codeWidth (r.1.toNat + 2) = r.2.1 ∧ codeWidth (r.2.2 - 1) = r.2.1 ∧
      codeWidth r.2.2 = r.2.1 + 1 := by decide

theorem witness_CodeLiesInWindow :
    codeWidth 4 = 2 ∧ codeNeed 0#3 (codeWidth 4) = 1 ∧ codeAdv 0#3 (codeWidth 4) = 0 ∧ codeWidth 65536 = 16 ∧
      codeNeed 7#3 (codeWidth 65536) = 3 ∧ codeAdv 7#3 (codeWidth 65536) = 2 := by decide

/-- V-X1, V-X7, V-X8 and V-X3, V-X9 and V-X4, V-X5 and V-X6: OFF + w = 2, 7, 8, 9, 15, 16, 17, 23. -/
theorem witness_BytesTouchedAndConsumed :
    (codeNeed 0#3 2 = 1 ∧ codeAdv 0#3 2 = 0) ∧ (codeNeed 5#3 2 = 1 ∧ codeAdv 5#3 2 = 0) ∧
      (codeNeed 0#3 8 = 1 ∧ codeAdv 0#3 8 = 1) ∧ (codeNeed 0#3 9 = 2 ∧ codeAdv 0#3 9 = 1) ∧
      (codeNeed 7#3 8 = 2 ∧ codeAdv 7#3 8 = 1) ∧ (codeNeed 7#3 9 = 2 ∧ codeAdv 7#3 9 = 2) ∧
      (codeNeed 7#3 10 = 3 ∧ codeAdv 7#3 10 = 2) ∧ (codeNeed 7#3 16 = 3 ∧ codeAdv 7#3 16 = 2) := by decide

/-- A window inside the buffer, and one with its last two bytes past the end. -/
theorem witness_WindowIsBufferAtBp :
    inProgramP1.bp + 2 < inProgramP1.len ∧ inProgramP1.win = 0x2CAD8C#24 ∧
      inProgramP4.bp + 1 = inProgramP4.len ∧ inProgramP4.win = 0x0000AD#24 := by decide

/-- Program P1, step 3: the code 6 in bits 6, 7 and 8 of the code area. -/
theorem witness_CodeBitsAreLsbFirst :
    onCode (extract inProgramP1) (fun i t => decide (i = .imp ∧ t.code = 6#16 ∧ t.width = 3#5)) = true := by decide

/-- Program P1 at step 3 (whole), program P4 at its end (not). -/
theorem witness_ExtractReadsOneCode :
    (2 ≤ codeWidth inProgramP1.size ∧ codeWidth inProgramP1.size ≤ 16 ∧
      inProgramP1.bp + (inProgramP1.off.toNat + codeWidth inProgramP1.size + 7) / 8 ≤ inProgramP1.len) ∧
      2 ≤ codeWidth inProgramP4.size ∧ codeWidth inProgramP4.size ≤ 16 ∧
      inProgramP4.len < inProgramP4.bp + (inProgramP4.off.toNat + codeWidth inProgramP4.size + 7) / 8 := by decide

/-- Both sides: program P4 at its end (truncated) and program P1 (not). -/
theorem witness_ExhaustionIsExact :
    (2 ≤ codeWidth inProgramP4.size ∧ codeWidth inProgramP4.size ≤ 16 ∧
      onTruncated (extract inProgramP4) (fun t => decide (t.err = .truncatedLzw)) = true) ∧
      2 ≤ codeWidth inProgramP1.size ∧ codeWidth inProgramP1.size ≤ 16 ∧
      onTruncated (extract inProgramP1) (fun _ => true) = false := by decide

/-- K = 4, SIZE = 7: every class at the ends of its range. -/
theorem witness_ClassTestsInOrder :
    classify { k := 4#9, size := 7 } 0#16 = .lit 0#16 ∧ classify { k := 4#9, size := 7 } 3#16 = .lit 3#16 ∧
      classify { k := 4#9, size := 7 } 4#16 = .clr ∧ classify { k := 4#9, size := 7 } 5#16 = .eoi ∧
      classify { k := 4#9, size := 7 } 6#16 = .ref 6#16 ∧ classify { k := 4#9, size := 7 } 7#16 = .imp ∧
      classify { k := 4#9, size := 7 } 8#16 = .byd 8#16 ∧
      classify { k := 4#9, size := 7 } 65535#16 = .byd 65535#16 := by decide

theorem witness_ReservedCodesAtEveryWidth :
    legalK 256#9 = true ∧ (256#9).toNat + 2 ≤ 65536 ∧ classify { k := 256#9, size := 65536 } 256#16 = .clr ∧
      classify { k := 256#9, size := 258 } 257#16 = .eoi := by decide

/-- (a) SIZE 8, (b) SIZE 4097 and 8192, (c) SIZE 7 (IMP alone) and SIZE 6 (BYD too). -/
theorem witness_AbsentClassesUnwritable :
    8 = 2 ^ codeWidth 8 ∧ codeWidth 4097 = 12 ∧ codeWidth 8192 = 12 ∧
      classify { k := 4#9, size := 8192 } 4095#16 = .ref 4095#16 ∧
      (7 ≠ 2 ^ codeWidth 7 ∧ Instr.imp.wellFormed { k := 4#9, size := 7 } = true ∧ ¬ 7 < 2 ^ codeWidth 7 - 1) ∧
      (6 < 2 ^ codeWidth 6 - 1 ∧ (Instr.byd 7#16).wellFormed { k := 4#9, size := 6 } = true) := by decide

/-- One well-formed code of each class, and three bits before it. -/
theorem witness_DecodeOfEncode :
    CodeCtx.wellFormed { k := 2#9, size := 5 } = true ∧
      (∀ i ∈ [Instr.clr, .eoi, .lit 1#16, .ref 4#16, .imp, .byd 7#16], i.wellFormed { k := 2#9, size := 5 } = true) ∧
      [true, false, true].length = (3#3).toNat := by decide

theorem witness_EncodeOfDecode :
    (4#9).toNat + 2 ≤ 6 ∧ decodeWindow { k := 4#9, size := 6 } 6#3 3 0x2CAD8C#24 = .code .imp 6#16 3 := by decide

/-- With nothing from the host, and with a turn that it passes. -/
theorem witness_StepRunsDecodedCode :
    (afterPair.phase = .run ∧ afterPair.host = [] ∧
      decodeWindow afterPair.ctx afterPair.off (afterPair.len - afterPair.bp) afterPair.win = .code (.ref 6#16) 6#16 3) ∧
      { afterPair with host := [.pass] }.host = .pass :: [] := by decide

theorem witness_QuiescentBlockHolds :
    (State.reset.phase ≠ .run ∧ State.reset.host = []) ∧
      ({ State.reset with host := [.pass] }.phase ≠ .run ∧ { State.reset with host := [.pass] }.host = [.pass]) ∧
      { atStart with host := [.wait] }.host = [.wait] := by decide

theorem witness_PlacedWordRuns :
    Memory.wf State.reset.inMem = true ∧ decodeTableWord 16 4 = some (.ref 4#16) := by decide

theorem witness_ResetCommandClears : { inProgramP4 with host := [.reset, .wait] }.host = [.reset, .wait] := by decide

/-- From reset, with one byte to latch; from a finished run, with no byte at all. -/
theorem witness_StartBeginsRun :
    ({ State.reset with host := [.start 4#9 3] }.phase ≠ .run ∧ legalK 4#9 = true ∧
      (4#9).toNat + 2 ≤ State.reset.dictCap ∧ 1 ≤ 3) ∧
      ({ inProgramP4 with phase := .done, host := [.start 256#9 0] }.phase ≠ .run ∧ legalK 256#9 = true ∧
        (256#9).toNat + 2 ≤ inProgramP4.dictCap ∧ 0 ≤ 1) := by decide

/-- V-L2: K = 0, 1, 3, 6, 100 and 257. -/
theorem witness_StartRefusesIllegalK :
    { State.reset with host := [.start 3#9 3] }.phase ≠ .run ∧
      ∀ k ∈ [0#9, 1#9, 3#9, 6#9, 100#9, 257#9], legalK k = false := by decide

theorem witness_StartBelowCapacityRefused :
    { State.reset with dictCap := 257, host := [.start 256#9 3] }.phase ≠ .run ∧ legalK 256#9 = true ∧
      257 < (256#9).toNat + 2 := by decide

/-- Also for `StartIgnoredInRun`. -/
theorem witness_StartIgnoredInRun :
    { atStart with host := [.start 4#9 3] }.host = .start 4#9 3 :: [] ∧
      { atStart with host := [.start 4#9 3] }.phase = .run := by decide

/-- Two states that differ in everything a former run leaves. -/
theorem witness_StartInheritsNothing :
    { State.reset with host := [.start 4#9 3] }.phase ≠ .run ∧
      { inProgramP4 with phase := .fault, inMem := [], host := [.start 4#9 3] }.phase ≠ .run ∧ legalK 4#9 = true ∧
      State.reset.dictCap = inProgramP4.dictCap ∧ State.reset.free = inProgramP4.free ∧
      State.reset.dict ≠ inProgramP4.dict := by decide

/-- Outside RUN and in RUN. -/
theorem witness_HostPlacesOneByte :
    (State.reset.phase ≠ .run ∧ Memory.wf State.reset.inMem = true ∧
      { State.reset with host := [.writeIn 1 0x64#8] }.host = .writeIn 1 0x64#8 :: []) ∧
      { atStart with host := [.writeIn 1 0x64#8] }.phase = .run := by decide

theorem witness_DictInitLayout : dictInit 2#9 = [[0#8], [1#8], [], []] := by decide

/-- A dictionary with a learned entry, and one at ORIG already (V-D8). -/
theorem witness_TruncateRestoresInit :
    DictInv afterPair ∧ DictInv atStart ∧ atStart.size = atStart.orig.toNat :=
  ⟨afterPair_dictInv, atStart_dictInv, by decide⟩

/-- V-D9 and V-D10. -/
theorem witness_AppendTakesNextCode :
    atCapacity.size = atCapacity.dictCap ∧ { atCapacity with dictCap := 6 }.size ≠ 6 := by decide

/-- V-D5: the candidate [0, 1] is already a learned entry. -/
theorem witness_LearnAlwaysAppends :
    DictInv { afterPair with prev := some [0#8] } ∧ { afterPair with prev := some [0#8] }.prev = some [0#8] :=
  ⟨{ afterPair_dictInv with prevOk := by intro p h; cases h; decide, prevOfLearned := fun _ => by decide }, rfl⟩

/-- A CLR, a REF that appends. -/
theorem witness_SizeGrowsByAtMostOne :
    (Inv atStart ∧ atStart.phase = .run ∧ BlockTurn atStart ∧ onNext (step atStart) (fun _ => true) = true) ∧
      Inv afterTwo ∧ afterTwo.phase = .run ∧ BlockTurn afterTwo ∧ onNext (step afterTwo) (fun _ => true) = true :=
  ⟨⟨atStart_inv, rfl, .inl rfl, by decide⟩, afterTwo_inv, rfl, .inl rfl, by decide⟩

/-- With something to truncate, and with nothing (V-C10). -/
theorem witness_ClearCodeResetsDictionary :
    DictInv afterPair ∧ DictInv atStart ∧ atStart.size = atStart.k.toNat + 2 ∧ atStart.prev = none :=
  ⟨afterPair_dictInv, atStart_dictInv, by decide, rfl⟩

/-- No previous phrase, one with room, one at the capacity; the greatest literal. -/
theorem witness_LiteralEmitsAndLearns :
    (DictInv atStart ∧ (3#16).toNat < atStart.k.toNat ∧ atStart.prev = none) ∧
      (DictInv afterTwo ∧ (3#16).toNat < afterTwo.k.toNat ∧ afterTwo.prev = some [2#8] ∧
        afterTwo.size ≠ afterTwo.dictCap) ∧
      DictInv atCapacity ∧ (1#16).toNat < atCapacity.k.toNat ∧ atCapacity.prev = some [1#8] ∧
        atCapacity.size = atCapacity.dictCap :=
  ⟨⟨atStart_dictInv, by decide, rfl⟩, ⟨afterTwo_dictInv, by decide, rfl, by decide⟩, atCapacity_dictInv, by decide,
    rfl, by decide⟩

/-- With room and at the capacity. -/
theorem witness_ReferenceEmitsAndLearns :
    (DictInv afterPair ∧ afterPair.k.toNat + 2 ≤ (6#16).toNat ∧ (6#16).toNat < afterPair.size ∧
      afterPair.size ≠ afterPair.dictCap) ∧
      DictInv atCapacity ∧ atCapacity.k.toNat + 2 ≤ (4#16).toNat ∧ (4#16).toNat < atCapacity.size ∧
        atCapacity.size = atCapacity.dictCap :=
  ⟨⟨afterPair_dictInv, by decide⟩, atCapacity_dictInv, by decide⟩

/-- With room and at the capacity. -/
theorem witness_ImpliedCodeSynthesizes :
    (inProgramP1.prev = some (1#8 :: []) ∧ inProgramP1.size ≠ inProgramP1.dictCap) ∧
      atCapacity.prev = some (1#8 :: []) ∧ atCapacity.size = atCapacity.dictCap := by decide

/-- With room and at the capacity. -/
theorem witness_BeyondCodeWarnsAndSynthesizes :
    (afterTwo.size < (7#16).toNat ∧ afterTwo.prev = some (2#8 :: []) ∧ afterTwo.size ≠ afterTwo.dictCap) ∧
      atCapacity.size < (6#16).toNat ∧ atCapacity.prev = some (1#8 :: []) ∧
        atCapacity.size = atCapacity.dictCap := by decide

theorem witness_AbsentCodeWithoutPrefixFaults : atStart.prev = none ∧ atStart.size < (7#16).toNat := by decide

/-- The second clause needs an empty previous phrase, which no run has. -/
theorem witness_BeyondCodeValueOnlyWarns :
    afterTwo.size < (7#16).toNat ∧ onNext (exec .imp afterTwo) (fun _ => true) = true ∧
      exec .imp { afterTwo with prev := some [] } = .fault .emptyPhrase :=
  ⟨by decide, by decide, rfl⟩

/-- Each class has a next state. -/
theorem witness_CodesLeaveInputAndPosition :
    onNext (exec .clr afterPair) (fun _ => true) = true ∧ onNext (exec .eoi afterPair) (fun _ => true) = true ∧
      onNext (exec (.lit 0#16) afterPair) (fun _ => true) = true ∧
      onNext (exec (.ref 6#16) afterPair) (fun _ => true) = true ∧
      onNext (exec .imp afterPair) (fun _ => true) = true ∧
      onNext (exec (.byd 8#16) afterPair) (fun _ => true) = true := by decide

theorem witness_ReservedCodesFrame :
    exec .clr atStart = .next (clearPrev (dictTruncate atStart)) ∧ exec .eoi atStart = .next (finish atStart) :=
  ⟨rfl, rfl⟩

/-- Both alternatives of the last clause: no fault, and DICT_FULL. -/
theorem witness_EmittingCodesFrame :
    onNext (exec (.byd 8#16) afterPair) (fun t => decide (t.phase = .run)) = true ∧
      onNext (exec .imp atCapacity) (fun t => decide (t.phase = .fault)) = true := by decide

theorem witness_NextContextAsTheTable :
    DictInv afterPair ∧ afterPair.phase = .run ∧
      onNext (exec (.ref 6#16) afterPair) (fun t => decide (t.phase ≠ .fault)) = true :=
  ⟨afterPair_dictInv, rfl, by decide⟩

/-- In a run, at a step that raises DICT_FULL. -/
theorem witness_StepKeepsInvariant : Inv atCapacity ∧ onNext (step atCapacity) (fun _ => true) = true :=
  ⟨atCapacity_inv, by decide⟩

theorem witness_StepKeepsCanonicalInput :
    Memory.wf inProgramP1.inMem = true ∧ onNext (step inProgramP1) (fun _ => true) = true ∧
      onNext (step { State.reset with host := [.writeIn 1 0#8] }) (fun t => decide (t.inMem = [])) = true := by decide

theorem witness_EveryStreamIsAcceptable : Inv atStart ∧ BlockTurn atStart :=
  ⟨atStart_inv, .inl rfl⟩

theorem witness_StepOutputBounded :
    Inv afterTwo ∧ afterTwo.phase = .run ∧ BlockTurn afterTwo ∧
      onNext (step afterTwo) (fun t => decide (t.out.length = afterTwo.out.length + 2)) = true :=
  ⟨afterTwo_inv, rfl, .inl rfl, by decide⟩

/-- Both alternatives. -/
theorem witness_PositionOnlyMovesForward :
    (inProgramP1.phase = .run ∧ BlockTurn inProgramP1 ∧ onNext (step inProgramP1) (fun t => decide (t.bp = 2)) = true) ∧
      inProgramP4.phase = .run ∧ BlockTurn inProgramP4 ∧
        onNext (step inProgramP4) (fun t => decide (t.err = .truncatedLzw)) = true :=
  ⟨⟨rfl, .inl rfl, by decide⟩, rfl, .inl rfl, by decide⟩

theorem witness_OnlyEndOfInformationReachesDone :
    { atStart with inMem := [(1, 0x05#8)] }.phase ≠ .done ∧
      onNext (step { atStart with inMem := [(1, 0x05#8)] }) (fun t => decide (t.phase = .done)) = true := by decide

theorem witness_OnlyCommandsLeaveQuiescence :
    State.reset.phase ≠ .run ∧ ¬ CommandTurn { State.reset with host := [.writeIn 1 0x64#8] } ∧
      onNext (step { State.reset with host := [.writeIn 1 0x64#8] }) (fun _ => true) = true := by
  refine ⟨by decide, ?_, by decide⟩
  rintro (⟨_, h⟩ | ⟨_, _, _, h⟩) <;> cases h

/-- Both alternatives: no BYD, and a BYD. -/
theorem witness_WarningOnlyFromBeyond :
    (afterPair.phase = .run ∧ BlockTurn afterPair ∧
      onNext (step afterPair) (fun t => decide (t.warnLog = [])) = true) ∧
      afterTwo.phase = .run ∧ BlockTurn afterTwo ∧ onNext (step afterTwo) (fun t => decide (t.warnCount = 1)) = true :=
  ⟨⟨rfl, .inl rfl, by decide⟩, rfl, .inl rfl, by decide⟩

/-- Each clause: a REF (two transfers, no WARN event), RESET (no event), and BYD with no previous phrase (V-C13, V-F2: the
one WARN event in RUN, then the fault) for the last two. -/
theorem witness_OutputOnlyAppended :
    (¬ CommandTurn afterPair ∧ onNext (step afterPair) (fun t =>
      decide (portEvents afterPair t = { out := [0#8, 1#8], warn := [] })) = true) ∧
      (CommandTurn { afterPair with host := [.reset] } ∧ onNext (step { afterPair with host := [.reset] }) (fun t =>
        decide (portEvents afterPair t = { out := [], warn := [] })) = true) ∧
      atNoPrefix.phase = .run ∧ BlockTurn atNoPrefix ∧
        decodeWindow atNoPrefix.ctx atNoPrefix.off (atNoPrefix.len - atNoPrefix.bp) atNoPrefix.win =
          .code (.byd 7#16) 7#16 3 ∧
        onNext (step atNoPrefix) (fun t => decide (portEvents atNoPrefix t =
          { out := [], warn := [{ kind := .dictCorrupt, code := 7#16, size := 6, ncodes := 1 }] })) = true := by
  refine ⟨⟨?_, by decide⟩, ⟨.inl ⟨[], rfl⟩, by decide⟩, rfl, .inl rfl, by decide, by decide⟩
  rintro (⟨_, h⟩ | ⟨_, _, _, h⟩) <;> cases h

theorem witness_InputNeverWrittenByBlock :
    onNext (step afterPair) (fun _ => true) = true ∧ ∀ a b rest, afterPair.host ≠ .writeIn a b :: rest :=
  ⟨by decide, fun _ _ _ h => by cases h⟩

/-- One state for each STATE, with the ports of R58 read there. -/
theorem witness_HostReadsResultOnly :
    (State.reset.phase = .idle ∧ State.reset.hostView.stateNum = 0#2) ∧
      (afterPair.phase = .run ∧ afterPair.hostView.stateNum = 1#2 ∧ afterPair.hostView.errInfo = none ∧
        afterPair.hostView.outCount = none) ∧
      ({ afterPair with phase := .done }.phase = .done ∧
        { afterPair with phase := .done }.hostView.outCount = some 2 ∧
        { afterPair with phase := .done }.hostView.done = true) ∧
      { atStart with phase := .fault, err := .noPrefix }.phase = .fault ∧
        { atStart with phase := .fault, err := .noPrefix }.hostView.err = some 2#3 ∧
        { atStart with phase := .fault, err := .noPrefix }.hostView.fault = true := by decide

/-- A buffer that differs at byte 0 and at LEN. -/
theorem witness_OnlyCodeBytesMatter :
    atStart.host = [] ∧ 1 ≤ atStart.bp ∧
      SameCodes atStart.inMem [(0, 0x02#8), (1, 0x64#8), (2, 0x01#8), (3, 0xFF#8)] atStart.len ∧
      onNext (core.run 1 atStart) (fun _ => true) = true := by
  refine ⟨rfl, by decide, ?_, by decide⟩
  intro a h1 h2
  have h3 : a < 3 := h2
  interval_cases a <;> decide

/-- The second clause, on V-S3 (CLR, CLR, EOI): the run ends at bit 1 of byte 2, the other buffer differs in every bit from
there on and is one byte longer. -/
theorem witness_OnlyCodeBytesMatter_after_end :
    atStart.host = [] ∧
      onNext (core.run 3 atStart) (fun t => decide (t.phase = .done ∧ t.bp = 2 ∧ t.off = 1#3)) = true ∧
      8 * 2 + (1#3).toNat ≤ 8 * 4 ∧
      SameBits atStart.inMem [(1, 0x64#8), (2, 0xFF#8), (3, 0xFF#8)] (8 * 1 + (0#3).toNat) (8 * 2 + (1#3).toNat) ∧
      bufferBit atStart.inMem 17 ≠ bufferBit [(1, 0x64#8), (2, 0xFF#8), (3, 0xFF#8)] 17 := by
  refine ⟨rfl, by decide, by decide, ?_, by decide⟩
  intro b h1 h2
  have h3 : 8 ≤ b := h1
  have h4 : b < 17 := h2
  interval_cases b <;> decide

/-- Also for `RunComputesWholeFunction`: START from reset, with the buffer of V-S3 in place. -/
theorem witness_EveryRunEnds :
    { State.reset with inMem := [(1, 0x64#8), (2, 0x01#8)], host := [.start 4#9 3] }.host = [.start 4#9 3] ∧
      State.reset.phase ≠ .run ∧ legalK 4#9 = true ∧ (4#9).toNat + 2 ≤ State.reset.dictCap ∧
      State.reset.dictCap ≤ 65536 := by decide

/-- R100's function on V-S3 and V-T5. -/
theorem witness_RunComputesWholeFunction :
    decodeWhole 4#9 65536 3 [(0, 0x02#8), (1, 0x64#8), (2, 0x01#8)] = some (.ok [] []) ∧
      decodeWhole 4#9 65536 3 [(0, 0x02#8), (1, 0x8C#8), (2, 0xAD#8)] = some (.error .truncatedLzw []) := by decide

/-- The stream of program P3 (a): K = 2, the indices [0, 1], IN = 01 34. -/
theorem witness_LiteralStreamDecodesToItself :
    assemble 1#8 2#9 ([0#8, 1#8].map (fun x => .lit (x.setWidth 16)) ++ [.eoi]) = [0x01#8, 0x34#8] ∧
      legalK 2#9 = true ∧ BelowK 2#9 [0#8, 1#8] ∧ (2#9).toNat + 2 + [0#8, 1#8].length ≤ 65536 ∧
      Memory.writeBytes [] 0 [0x01#8, 0x34#8] = [(0, 0x01#8), (1, 0x34#8)] ∧
      { State.reset with inMem := [(0, 0x01#8), (1, 0x34#8)], host := [.start 2#9 2] }.phase ≠ .run := by decide

end Sys2Proof.Tests
end

section
/-! PROOFS. The statements of the family 00_scope. -/

namespace Sys2Proof

open Machine

/-- Settles O24: the host's turn is START, and outside RUN a START whose legal K has K+2 above DICT_CAP (which its turn
does not change) is the model's refusal (assumption log 9). -/
theorem startBelowCapacityRefused : Obligations.StartBelowCapacityRefused := by
  intro s k len rest hhost hphase hlegal hcap
  rw [step_start hhost]
  exact startCommand_small hphase hlegal hcap

end Sys2Proof
end

section
/-! PROOFS. How each code and each step of the block ends, said once for the statements of the family 10_state (and for
any statement about every code): the ends of LIT, REF, IMP and BYD, what every code keeps, what every code appends. -/

namespace Sys2Proof.Machine

open Safety

/-! ## The ends of the emitting codes (R92 to R96, R104) -/

/-- How the statements of an emitting code can leave the state `u` they started from: NO_PREFIX; the phrase emitted, with
nothing or one entry appended, and PREV replaced; or the phrase emitted and DICT_FULL. -/
inductive Emitted (u : State) : State → Prop where
  | noPrefix : Emitted u (raise .noPrefix (recordCode u) u)
  | kept (p : Phrase) : Emitted u (setPrev p (emit p u))
  | appended (p q : Phrase) : Emitted u (setPrev p (pushEntry q (emit p u)))
  | full (p : Phrase) : Emitted u (raise .dictFull (recordCode (emit p u)) (emit p u))

/-- The record a code makes before its other statements: BYD's warning, nothing for any other (R95, R102). -/
def recordBeyond : Instr → State → State
  | .byd c, s => warn .dictCorrupt c s
  | _, s => s

theorem performKnown_emitted {c : Nat} {s t : State} (h : (performKnown c s).outcome = .next t) : Emitted s t := by
  rcases performKnown_cases c s with ⟨f, e⟩ | ⟨x, xs, -, e | ⟨q, -, ⟨-, e⟩ | ⟨-, e⟩⟩⟩ <;> rw [e] at h <;> cases h
  · exact .kept _
  · exact .appended _ _
  · exact .full _

theorem performImplied_emitted {s t : State} (h : (performImplied s).outcome = .next t) : Emitted s t := by
  rcases performImplied_cases s with e | ⟨-, e⟩ | ⟨q, -, -, ⟨-, e⟩ | ⟨-, e⟩⟩ <;> rw [e] at h <;> cases h
  · exact .noPrefix
  · exact .appended _ _
  · exact .full _

/-- How a code that answers a next state ends: CLR and EOI in their one way, every other code, its warning recorded, as
`Emitted` has it. -/
theorem exec_next {i : Instr} {s t : State} (h : exec i s = .next t) :
    (i = .clr ∧ t = clearPrev (dictTruncate s)) ∨ (i = .eoi ∧ t = finish s) ∨
      (i ≠ .clr ∧ i ≠ .eoi ∧ Emitted (recordBeyond i s) t) := by
  cases i with
  | clr => cases h; exact .inl ⟨rfl, rfl⟩
  | eoi => cases h; exact .inr (.inl ⟨rfl, rfl⟩)
  | lit n =>
    simp only [exec, execLit] at h
    split at h
    · exact .inr (.inr ⟨nofun, nofun, performKnown_emitted h⟩)
    · cases h
  | ref c =>
    simp only [exec, execRef] at h
    split at h
    · exact .inr (.inr ⟨nofun, nofun, performKnown_emitted h⟩)
    · cases h
  | imp => exact .inr (.inr ⟨nofun, nofun, performImplied_emitted h⟩)
  | byd c =>
    simp only [exec, execByd] at h
    split at h
    · exact .inr (.inr ⟨nofun, nofun, performImplied_emitted h⟩)
    · cases h

/-! ## What every code keeps (R12, R17, R33, R104) -/

/-- The elements that no code writes: the run's parameters, what EXTRACT wrote, the buffer and the host's turns. -/
structure CodeKeeps (s t : State) : Prop where
  k : t.k = s.k
  len : t.len = s.len
  mcs : t.mcs = s.mcs
  orig : t.orig = s.orig
  dictCap : t.dictCap = s.dictCap
  bp : t.bp = s.bp
  off : t.off = s.off
  width : t.width = s.width
  code : t.code = s.code
  ncodes : t.ncodes = s.ncodes
  host : t.host = s.host
  inMem : t.inMem = s.inMem

theorem Emitted.keeps {u t : State} (h : Emitted u t) : CodeKeeps u t := by
  cases h <;> constructor <;> rfl

theorem CodeKeeps.of_recordBeyond {i : Instr} {s t : State} (h : CodeKeeps (recordBeyond i s) t) : CodeKeeps s t := by
  cases i <;> exact ⟨h.k, h.len, h.mcs, h.orig, h.dictCap, h.bp, h.off, h.width, h.code, h.ncodes, h.host, h.inMem⟩

theorem exec_keeps {i : Instr} {s t : State} (h : exec i s = .next t) : CodeKeeps s t := by
  rcases exec_next h with ⟨-, rfl⟩ | ⟨-, rfl⟩ | ⟨-, -, he⟩
  · constructor <;> rfl
  · constructor <;> rfl
  · exact he.keeps.of_recordBeyond

/-- A byte reads as before where the buffer and LEN are as before. -/
theorem memByte_congr {s t : State} (hm : t.inMem = s.inMem) (hl : t.len = s.len) (a : Nat) :
    t.memByte a = s.memByte a := by
  rw [State.memByte, State.memByte, hm, hl]

/-! ## What an emitting code appends and leaves (R22, R25, R104) -/

theorem Emitted.out_prefix {u t : State} (h : Emitted u t) : u.out <+: t.out := by
  cases h <;> simp

theorem Emitted.warnLog_eq {u t : State} (h : Emitted u t) : t.warnLog = u.warnLog := by
  cases h <;> simp

theorem Emitted.dict_getElem? {u t : State} (h : Emitted u t) {c : Nat} (hc : c < u.size) :
    t.dict[c]? = u.dict[c]? := by
  cases h with
  | noPrefix | kept | full => rfl
  | appended p q => exact List.getElem?_append_left hc

/-- Either no fault was raised, or one of the two was and the dictionary and PREV are as before (R104). -/
theorem Emitted.status {u t : State} (h : Emitted u t) :
    (t.phase = u.phase ∧ t.err = u.err ∧ t.errInfo = u.errInfo ∧ t.free = u.free) ∨
      (t.phase = .fault ∧ (t.err = .noPrefix ∨ t.err = .dictFull) ∧ t.dict = u.dict ∧ t.prev = u.prev) := by
  cases h with
  | noPrefix => exact .inr ⟨rfl, .inl rfl, rfl, rfl⟩
  | full p => exact .inr ⟨rfl, .inr rfl, rfl, rfl⟩
  | kept | appended => exact .inl ⟨rfl, rfl, rfl, rfl⟩

theorem recordBeyond_of_ne {i : Instr} (s : State) (h : ∀ c, i ≠ .byd c) : recordBeyond i s = s := by
  cases i with
  | byd c => exact absurd rfl (h c)
  | clr | eoi | lit | ref | imp => rfl

@[simp] theorem recordBeyond_dict (i : Instr) (s : State) : (recordBeyond i s).dict = s.dict := by
  cases i <;> rfl

@[simp] theorem recordBeyond_prev (i : Instr) (s : State) : (recordBeyond i s).prev = s.prev := by
  cases i <;> rfl

@[simp] theorem recordBeyond_out (i : Instr) (s : State) : (recordBeyond i s).out = s.out := by
  cases i <;> rfl

@[simp] theorem recordBeyond_phase (i : Instr) (s : State) : (recordBeyond i s).phase = s.phase := by
  cases i <;> rfl

@[simp] theorem recordBeyond_err (i : Instr) (s : State) : (recordBeyond i s).err = s.err := by
  cases i <;> rfl

@[simp] theorem recordBeyond_errInfo (i : Instr) (s : State) : (recordBeyond i s).errInfo = s.errInfo := by
  cases i <;> rfl

@[simp] theorem recordBeyond_free (i : Instr) (s : State) : (recordBeyond i s).free = s.free := by
  cases i <;> rfl

@[simp] theorem recordBeyond_size (i : Instr) (s : State) : (recordBeyond i s).size = s.size := by
  cases i <;> rfl

theorem exec_out_prefix {i : Instr} {s t : State} (h : exec i s = .next t) : s.out <+: t.out := by
  rcases exec_next h with ⟨-, rfl⟩ | ⟨-, rfl⟩ | ⟨-, -, he⟩
  · exact List.prefix_rfl
  · exact List.prefix_rfl
  · rw [← recordBeyond_out i s]
    exact he.out_prefix

theorem warnLog_prefix_recordBeyond (i : Instr) (s : State) : s.warnLog <+: (recordBeyond i s).warnLog := by
  cases i with
  | byd c => exact List.prefix_append _ _
  | clr | eoi | lit | ref | imp => exact List.prefix_rfl

/-- Every code leaves WARN_LOG as BYD's warning, if there is one, left it (R95, R102). -/
theorem exec_warnLog {i : Instr} {s t : State} (h : exec i s = .next t) : t.warnLog = (recordBeyond i s).warnLog := by
  rcases exec_next h with ⟨rfl, rfl⟩ | ⟨rfl, rfl⟩ | ⟨-, -, he⟩
  · rfl
  · rfl
  · exact he.warnLog_eq

/-! ## A step of the block (R17, R63, R75) -/

/-- What the decoder reads at the position (R73, R75). -/
abbrev State.decoded (s : State) : DecodeResult :=
  decodeWindow s.ctx s.off (s.len - s.bp) s.win

/-- The position, as the number of the bit at which the next code starts (R16). -/
def State.bitPos (s : State) : Nat :=
  8 * s.bp + s.off.toNat

/-- EXTRACT moves the position by the width of the code (R17, R74). -/
theorem bitPos_advance (idx : Code) (w : Nat) (s : State) : (advance idx w s).bitPos = s.bitPos + w := by
  simp only [State.bitPos, advance, codeAdv, codeNextOff, BitVec.toNat_ofNat]
  omega

theorem exec_bitPos {i : Instr} {s t : State} (h : exec i s = .next t) : t.bitPos = s.bitPos := by
  rw [State.bitPos, State.bitPos, (exec_keeps h).bp, (exec_keeps h).off]

/-- In the block's turn, a step in RUN runs the code the decoder reads, or raises TRUNCATED_LZW. -/
theorem step_next_blockTurn {s t : State} (hr : s.phase = .run) (hb : BlockTurn s) (h : step s = .next t) :
    (∃ i idx w, s.decoded = .code i idx w ∧ exec i (advance idx w { s with host := s.host.tail }) = .next t) ∨
      (s.decoded = .truncated ∧ t = raiseTruncated { s with host := s.host.tail }) := by
  have hs : step s = stepCode { s with host := s.host.tail } := by
    rcases hb with hh | ⟨rest, hh⟩
    · rw [step_nil hh, stepBlock_run hr, hh, List.tail_nil, ← hh]
    · rw [step_pass hh, stepBlock_run (s := { s with host := rest }) hr, hh, List.tail_cons]
  exact stepCode_next (hs ▸ h)

/-- A step with nothing from the host holds outside RUN; in RUN it runs the code the decoder reads, or raises
TRUNCATED_LZW. -/
theorem step_next_quiet {s t : State} (hh : s.host = []) (h : step s = .next t) :
    (s.phase ≠ .run ∧ t = s) ∨
      (∃ i idx w, s.phase = .run ∧ s.decoded = .code i idx w ∧ exec i (advance idx w s) = .next t) ∨
      (s.phase = .run ∧ s.decoded = .truncated ∧ t = raiseTruncated s) := by
  rw [step_nil hh] at h
  by_cases hr : s.phase = .run
  · rw [stepBlock_run hr] at h
    rcases stepCode_next h with ⟨i, idx, w, hd, he⟩ | ⟨hd, ht⟩
    · exact .inr (.inl ⟨i, idx, w, hr, hd, he⟩)
    · exact .inr (.inr ⟨hr, hd, ht⟩)
  · rw [stepBlock_quiescent hr] at h
    cases h
    exact .inl ⟨hr, rfl⟩

/-- In the block's turn, a step in RUN leaves OUT and WARN_LOG with what they held at their beginning. -/
theorem step_histories_blockTurn {s t : State} (hr : s.phase = .run) (hb : BlockTurn s) (h : step s = .next t) :
    s.out <+: t.out ∧ s.warnLog <+: t.warnLog := by
  rcases step_next_blockTurn hr hb h with ⟨i, idx, w, -, he⟩ | ⟨-, rfl⟩
  · have ho := exec_out_prefix he
    refine ⟨ho, ?_⟩
    rw [exec_warnLog he]
    exact warnLog_prefix_recordBeyond i (advance idx w { s with host := s.host.tail })
  · exact ⟨List.prefix_rfl, List.prefix_rfl⟩

theorem not_commandTurn_of_blockTurn {s : State} (h : BlockTurn s) : ¬ CommandTurn s := by
  rintro (⟨rest, hc⟩ | ⟨k, len, rest, hc⟩) <;> rcases h with h | ⟨rest', h⟩ <;> rw [h] at hc <;> cases hc

/-- What a step that answers a next state is: the block's STEP; a turn that changes at most the host's turns and, where it
is the host's own write, IN; or a command, which empties OUT and WARN_LOG. -/
theorem step_next_turn {s t : State} (h : step s = .next t) :
    (s.phase = .run ∧ BlockTurn s) ∨
      (t = { s with host := s.host.tail, inMem := t.inMem } ∧
        ((∀ a b rest, s.host ≠ .writeIn a b :: rest) → t.inMem = s.inMem)) ∨
      (CommandTurn s ∧ t.out = [] ∧ t.warnLog = [] ∧ t.inMem = s.inMem ∧ t.dictCap = s.dictCap) := by
  rcases step_next h with ⟨u, hu, hr⟩ | ⟨rest, hh, rfl⟩ | ⟨a, b, rest, hh, -, rfl⟩ | ⟨rest, hh, rfl⟩ |
    ⟨k, len, rest, hh, ⟨-, rfl⟩ | ⟨-, -, -, rfl⟩ | ⟨-, -, rfl⟩⟩
  · rcases hu with ⟨hh, rfl⟩ | ⟨rest, hh, rfl⟩ <;> rcases hr with ⟨hr, -⟩ | ⟨-, rfl⟩
    · exact .inl ⟨hr, .inl hh⟩
    · refine .inr (.inl ⟨?_, fun _ => rfl⟩)
      rw [hh, List.tail_nil, ← hh]
    · exact .inl ⟨hr, .inr ⟨rest, hh⟩⟩
    · exact .inr (.inl ⟨by rw [hh, List.tail_cons], fun _ => rfl⟩)
  · exact .inr (.inl ⟨by rw [hh, List.tail_cons], fun _ => rfl⟩)
  · exact .inr (.inl ⟨by rw [hh, List.tail_cons], fun hw => absurd hh (hw a b rest)⟩)
  · exact .inr (.inr ⟨.inl ⟨rest, hh⟩, rfl, rfl, rfl, rfl⟩)
  · exact .inr (.inl ⟨by rw [hh, List.tail_cons], fun _ => rfl⟩)
  · exact .inr (.inr ⟨.inr ⟨k, len, rest, hh⟩, rfl, rfl, rfl, rfl⟩)
  · exact .inr (.inr ⟨.inr ⟨k, len, rest, hh⟩, rfl, rfl, rfl, rfl⟩)

/-! ## The events of a step (R25, R106, R108) -/

/-- No step but a command shortens or reorders OUT or WARN_LOG. -/
theorem step_histories {s t : State} (hc : ¬ CommandTurn s) (h : step s = .next t) :
    s.out <+: t.out ∧ s.warnLog <+: t.warnLog := by
  rcases step_next_turn h with ⟨hr, hb⟩ | ⟨ht, -⟩ | ⟨hc', -⟩
  · exact step_histories_blockTurn hr hb h
  · rw [ht]
    exact ⟨List.prefix_rfl, List.prefix_rfl⟩
  · exact absurd hc' hc

/-- A command has no event; in RUN, where START is ignored, neither (R59 to R62). -/
theorem portEvents_of_commandTurn {s t : State} (hc : CommandTurn s) (h : step s = .next t) :
    portEvents s t = { out := [], warn := [] } := by
  rcases step_next_turn h with ⟨-, hb⟩ | ⟨ht, -⟩ | ⟨-, ho, hw, -⟩
  · exact absurd hc (not_commandTurn_of_blockTurn hb)
  · rw [ht]
    exact portEvents_of_eq rfl rfl
  · exact portEvents_of_empty ho hw

/-- The one WARN event of a step whose code is beyond the dictionary (R95, R102). -/
theorem portEvents_warn_of_beyond {s t : State} {c idx : Code} {w : Nat} (hr : s.phase = .run) (hb : BlockTurn s)
    (hd : s.decoded = .code (.byd c) idx w) (h : step s = .next t) :
    (portEvents s t).warn = [{ kind := .dictCorrupt, code := c, size := s.size, ncodes := s.ncodes + 1 }] := by
  rcases step_next_blockTurn hr hb h with ⟨i, idx', w', hd', he⟩ | ⟨hd', -⟩
  · rw [hd] at hd'
    cases hd'
    exact portEvents_warn_of_append (exec_warnLog he)
  · rw [hd] at hd'
    cases hd'

/-- A step of the block whose code is not beyond the dictionary leaves WARN_LOG. -/
theorem step_warnLog_of_not_beyond {s t : State} (hr : s.phase = .run) (hb : BlockTurn s)
    (hd : ∀ c idx w, s.decoded ≠ .code (.byd c) idx w) (h : step s = .next t) : t.warnLog = s.warnLog := by
  rcases step_next_blockTurn hr hb h with ⟨i, idx, w, hd', he⟩ | ⟨-, rfl⟩
  · rw [exec_warnLog he, recordBeyond_of_ne _ fun c hi => hd c idx w (hi ▸ hd')]
    rfl
  · rfl

/-- A WARN event is that of a step in RUN whose code is beyond the dictionary (R102, R106). -/
theorem beyond_of_portEvents_warn {s t : State} (h : step s = .next t) (hw : (portEvents s t).warn ≠ []) :
    s.phase = .run ∧ BlockTurn s ∧ ∃ c idx w, s.decoded = .code (.byd c) idx w := by
  rcases step_next_turn h with ⟨hr, hb⟩ | ⟨ht, -⟩ | ⟨-, ho, hl, -⟩
  · refine ⟨hr, hb, ?_⟩
    by_contra hn
    push Not at hn
    have hl := step_warnLog_of_not_beyond hr hb hn h
    simp [portEvents, hl] at hw
  · rw [ht] at hw
    simp [portEvents] at hw
  · simp [portEvents, hl] at hw

/-! ## Steps with nothing from the host -/

/-- What a step with nothing from the host keeps: the buffer, LEN, the host's turns; the position does not go back. -/
structure QuietKeeps (s t : State) : Prop where
  inMem : t.inMem = s.inMem
  len : t.len = s.len
  host : t.host = s.host
  bp : s.bp ≤ t.bp
  bitPos : s.bitPos ≤ t.bitPos

theorem step_quietKeeps {s t : State} (hh : s.host = []) (h : step s = .next t) : QuietKeeps s t := by
  rcases step_next_quiet hh h with ⟨-, rfl⟩ | ⟨i, idx, w, -, -, he⟩ | ⟨-, -, rfl⟩
  · exact ⟨rfl, rfl, rfl, le_rfl, le_rfl⟩
  · have hk := exec_keeps he
    refine ⟨hk.inMem, hk.len, hk.host, ?_, ?_⟩
    · rw [hk.bp]
      exact Nat.le_add_right _ _
    · rw [exec_bitPos he, bitPos_advance]
      exact Nat.le_add_right _ _
  · exact ⟨rfl, rfl, rfl, le_rfl, le_rfl⟩

/-- The first step of a run that answers a next state. -/
theorem run_succ_inv {n : Nat} {s t : State} (h : core.run (n + 1) s = .next t) :
    ∃ u, step s = .next u ∧ core.run n u = .next t := by
  cases hs : step s with
  | next u => exact ⟨u, rfl, run_succ_next hs ▸ h⟩
  | fault f => rw [run_succ_fault hs] at h; cases h
  | refused r => rw [run_succ_refused hs] at h; cases h

theorem run_quietKeeps {n : Nat} {s t : State} (hh : s.host = []) (h : core.run n s = .next t) : QuietKeeps s t := by
  induction n generalizing s with
  | zero => cases h; exact ⟨rfl, rfl, rfl, le_rfl, le_rfl⟩
  | succ n ih =>
    obtain ⟨u, hu, hr⟩ := run_succ_inv h
    have k₁ := step_quietKeeps hh hu
    have k₂ := ih (k₁.host.trans hh) hr
    exact ⟨k₂.inMem.trans k₁.inMem, k₂.len.trans k₁.len, k₂.host.trans k₁.host, k₁.bp.trans k₂.bp,
      k₁.bitPos.trans k₂.bitPos⟩

end Sys2Proof.Machine
end

section
/-! PROOFS. Bits of the window and of the buffer (rules R18, R35, R36, R52). -/

namespace Sys2Proof.Machine

/-- A byte below LEN is the buffer's own (R38). -/
theorem memByte_of_lt {s : State} {a : Nat} (h : a < s.len) : s.memByte a = Memory.read s.inMem a :=
  if_pos h

/-- A byte at or beyond LEN does not exist and reads 0x00 (R38). -/
theorem memByte_of_le {s : State} {a : Nat} (h : s.len ≤ a) : s.memByte a = 0#8 :=
  if_neg (Nat.not_lt.mpr h)

/-- The three bytes as one number, the first one lowest (R18, R36). -/
theorem windowOf_toNat (b0 b1 b2 : Byte) :
    (windowOf b0 b1 b2).toNat = b0.toNat + 256 * b1.toNat + 65536 * b2.toNat := by
  have h0 := b0.isLt
  have h1 := b1.isLt
  simp only [windowOf, BitVec.toNat_append]
  rw [← Nat.shiftLeft_add_eq_or_of_lt h0, ← Nat.shiftLeft_add_eq_or_of_lt h1, Nat.shiftLeft_eq, Nat.shiftLeft_eq]
  omega

theorem windowOf_getLsbD (b0 b1 b2 : Byte) (n : Nat) :
    (windowOf b0 b1 b2).getLsbD n =
      if n < 8 then b0.getLsbD n else if n < 16 then b1.getLsbD (n - 8) else b2.getLsbD (n - 16) := by
  simp only [windowOf, BitVec.getLsbD_append]
  split
  · rfl
  · by_cases h : n < 16
    · rw [if_pos (by omega), if_pos h]
    · rw [if_neg (by omega), if_neg h, Nat.sub_sub]

/-- A bit of WIN is the bit of IN as far behind the first bit of byte BP (R18, R35). -/
theorem win_getLsbD (s : State) {n : Nat} (hn : n < 24) : s.win.getLsbD n = s.inBit (8 * s.bp + n) := by
  rw [State.win, State.memWindow, windowOf_getLsbD, State.inBit]
  split
  · rw [show (8 * s.bp + n) / 8 = s.bp by omega, show (8 * s.bp + n) % 8 = n by omega]
  · split
    · rw [show (8 * s.bp + n) / 8 = s.bp + 1 by omega, show (8 * s.bp + n) % 8 = n - 8 by omega]
    · rw [show (8 * s.bp + n) / 8 = s.bp + 2 by omega, show (8 * s.bp + n) % 8 = n - 16 by omega]

/-- A bit before bit 8*LEN is the buffer's own. -/
theorem inBit_of_lt {s : State} {n : Nat} (h : n < 8 * s.len) : s.inBit n = bufferBit s.inMem n := by
  rw [State.inBit, memByte_of_lt (by omega), bufferBit]

/-- Bit b of a code's value is bit OFF + b of the window, for b below the width (R52). -/
theorem codeValue_getLsbD {win : BitVec 24} {off : BitVec 3} {w b : Nat} (hw : w ≤ 16) :
    (codeValue win off w).getLsbD b = (decide (b < w) && win.getLsbD (off.toNat + b)) := by
  simp only [codeValue, BitVec.getLsbD_setWidth, BitVec.getLsbD_and, BitVec.getLsbD_ushiftRight, BitVec.getLsbD_ofNat,
    Nat.testBit_two_pow_sub_one]
  by_cases hb : b < w
  · simp [hb, show b < 16 by omega, show b < 24 by omega]
  · simp [hb]

/-- Two windows with the same bits where a code lies give it the same value. -/
theorem codeValue_congr {win win' : BitVec 24} {off : BitVec 3} {w : Nat} (hw : w ≤ 16)
    (h : ∀ b, b < w → win.getLsbD (off.toNat + b) = win'.getLsbD (off.toNat + b)) :
    codeValue win off w = codeValue win' off w := by
  apply BitVec.eq_of_getLsbD_eq
  intro b _
  rw [codeValue_getLsbD hw, codeValue_getLsbD hw]
  by_cases hb : b < w
  · rw [h b hb]
  · simp [hb]

/-- The decoder reads of a window no bit but those of the code, and of the number of bytes left only that they hold it
(R52, R73, R75). -/
theorem decodeWindow_congr {ctx : CodeCtx} {off : BitVec 3} {avail avail' : Nat} {win win' : BitVec 24} {i : Instr}
    {idx : Code} {w : Nat} (hd : decodeWindow ctx off avail win = .code i idx w) (ha : codeNeed off w ≤ avail')
    (hb : ∀ b, b < w → win'.getLsbD (off.toNat + b) = win.getLsbD (off.toNat + b)) :
    decodeWindow ctx off avail' win' = .code i idx w := by
  obtain ⟨rfl, hok, -, rfl, rfl⟩ := decodeWindow_code hd
  rw [decodeWindow_of_le hok ha, codeValue_congr ((widthOk_iff _).mp hok).2 hb]

end Sys2Proof.Machine
end

section
/-! PROOFS. Another buffer, minimum-code-size byte and LEN in the same state: no code reads them, so a step depends on
them by what the decoder reads alone (rules R15, R38, R67). -/

namespace Sys2Proof.Machine

open Safety

/-- The state with another buffer, MCS and LEN. -/
def State.withBuffer (mem : List Host.Cell) (mcs : Byte) (len : Nat) (s : State) : State :=
  { s with inMem := mem, mcs := mcs, len := len }

/-- The same end of a statement, with a function applied to its state. -/
def Flow.map (f : State → State) : Flow → Flow
  | .cont s => .cont (f s)
  | .raised s => .raised (f s)
  | .stuck r => .stuck r

variable {mem : List Host.Cell} {mcs : Byte} {len : Nat}

theorem outcome_map_next {f : State → State} {w : Flow} {t : State} (h : w.outcome = .next t) :
    (w.map f).outcome = .next (f t) := by
  rcases outcome_next h with rfl | rfl <;> rfl

/-- Two statements that each commute with a change of the state commute with it in sequence. -/
theorem andThen_map {f : State → State} {w : Flow} {g : State → Flow} (h : ∀ s, g (f s) = (g s).map f) :
    (w.map f).andThen g = (w.andThen g).map f := by
  cases w with
  | cont s => exact h s
  | raised | stuck => rfl

theorem emit_withBuffer (p : Phrase) (s : State) :
    emit p (s.withBuffer mem mcs len) = (emit p s).withBuffer mem mcs len := rfl

theorem dictAppend_withBuffer (p : Phrase) (s : State) :
    dictAppend p (s.withBuffer mem mcs len) = (dictAppend p s).map (State.withBuffer mem mcs len) := by
  rcases dictAppend_cases p s with ⟨hs, e⟩ | ⟨hs, e⟩
  · rw [e, dictAppend_of_full (s := s.withBuffer mem mcs len) hs]
    rfl
  · rw [e, dictAppend_of_room (s := s.withBuffer mem mcs len) hs]
    rfl

theorem learnCandidate_withBuffer (p : Phrase) (s : State) :
    learnCandidate p (s.withBuffer mem mcs len) = (learnCandidate p s).map (State.withBuffer mem mcs len) := by
  have hb : (s.withBuffer mem mcs len).baseHas p = s.baseHas p := rfl
  rw [learnCandidate, learnCandidate, hb]
  split
  · rfl
  · exact dictAppend_withBuffer p s

theorem learn_withBuffer (x : Byte) (s : State) :
    learn x (s.withBuffer mem mcs len) = (learn x s).map (State.withBuffer mem mcs len) := by
  cases h : s.prev with
  | none => rw [learn_of_none h, learn_of_none (s := s.withBuffer mem mcs len) h]; rfl
  | some q =>
    rw [learn_of_some h, learn_of_some (s := s.withBuffer mem mcs len) h]
    exact learnCandidate_withBuffer _ s

theorem performKnown_withBuffer (c : Nat) (s : State) :
    performKnown c (s.withBuffer mem mcs len) = (performKnown c s).map (State.withBuffer mem mcs len) := by
  rcases h : s.dict[c]? with _ | _ | ⟨x, xs⟩
  · simp [performKnown, withPhrase, State.dictRead, State.withBuffer, h, Flow.map]
  · simp [performKnown, withPhrase, State.dictRead, State.withBuffer, h, Flow.map]
  · rw [performKnown, performKnown, withPhrase_of_some h, withPhrase_of_some (s := s.withBuffer mem mcs len) h]
    rw [emit_withBuffer, learn_withBuffer, andThen_map fun _ => rfl]

theorem performImplied_withBuffer (s : State) :
    performImplied (s.withBuffer mem mcs len) = (performImplied s).map (State.withBuffer mem mcs len) := by
  rcases h : s.prev with _ | _ | ⟨x, xs⟩
  · rw [performImplied, performImplied, withImplied_of_none h, withImplied_of_none (s := s.withBuffer mem mcs len) h]
    rfl
  · simp [performImplied, withImplied, State.withBuffer, h, Flow.map]
  · have hne : x :: xs ≠ [] := List.cons_ne_nil x xs
    rw [performImplied, performImplied, withImplied_of_some h hne,
      withImplied_of_some (s := s.withBuffer mem mcs len) h hne]
    rw [emit_withBuffer, dictAppend_withBuffer, andThen_map fun _ => rfl]

/-- No code reads the buffer, MCS or LEN. -/
theorem exec_withBuffer {i : Instr} {s t : State} (h : exec i s = .next t) :
    exec i (s.withBuffer mem mcs len) = .next (t.withBuffer mem mcs len) := by
  cases i with
  | clr | eoi => cases h; rfl
  | lit n =>
    simp only [exec, execLit] at h ⊢
    split at h
    · rw [if_pos ‹_›, performKnown_withBuffer, outcome_map_next h]
    · cases h
  | ref c =>
    simp only [exec, execRef] at h ⊢
    split at h
    · rw [if_pos ‹_›, performKnown_withBuffer, outcome_map_next h]
    · cases h
  | imp => exact (congrArg Flow.outcome (performImplied_withBuffer s)).trans (outcome_map_next h)
  | byd c =>
    simp only [exec, execByd] at h ⊢
    split at h
    · rw [if_pos ‹_›]
      exact (congrArg Flow.outcome (performImplied_withBuffer (warn .dictCorrupt c s))).trans (outcome_map_next h)
    · cases h

/-- A step with nothing from the host depends on the buffer, MCS and LEN by what the decoder reads in RUN alone. -/
theorem step_withBuffer {s t : State} (hh : s.host = [])
    (hd : s.phase = .run → (s.withBuffer mem mcs len).decoded = s.decoded) (h : step s = .next t) :
    step (s.withBuffer mem mcs len) = .next (t.withBuffer mem mcs len) := by
  rw [step_nil (s := s.withBuffer mem mcs len) hh]
  rcases step_next_quiet hh h with ⟨hr, rfl⟩ | ⟨i, idx, w, hr, hc, he⟩ | ⟨hr, hc, rfl⟩
  · exact stepBlock_quiescent (s := t.withBuffer mem mcs len) hr
  · rw [stepBlock_run (s := s.withBuffer mem mcs len) hr, stepCode_of_code ((hd hr).trans hc)]
    exact exec_withBuffer he
  · rw [stepBlock_run (s := s.withBuffer mem mcs len) hr, stepCode_of_truncated ((hd hr).trans hc)]
    rfl

/-! ## Bytes that no code comes from (R15, R38) -/

theorem memByte_withBuffer {s : State} (hc : SameCodes s.inMem mem s.len) {a : Nat} (ha : 1 ≤ a) :
    (s.withBuffer mem mcs s.len).memByte a = s.memByte a := by
  by_cases hl : a < s.len
  · exact (if_pos hl).trans ((hc a ha hl).symm.trans (if_pos hl).symm)
  · exact (if_neg hl).trans (if_neg hl).symm

theorem decoded_withBuffer_of_sameCodes {s : State} (hb : 1 ≤ s.bp) (hc : SameCodes s.inMem mem s.len) :
    (s.withBuffer mem mcs s.len).decoded = s.decoded := by
  have hw : (s.withBuffer mem mcs s.len).win = s.win := by
    change windowOf _ _ _ = windowOf _ _ _
    congr 1 <;> exact memByte_withBuffer hc (by simp only [State.withBuffer]; omega)
  exact congrArg (decodeWindow s.ctx s.off (s.len - s.bp)) hw

theorem run_withBuffer_of_sameCodes (n : Nat) {s t : State} (hh : s.host = []) (hb : 1 ≤ s.bp)
    (hc : SameCodes s.inMem mem s.len) (h : core.run n s = .next t) :
    core.run n (s.withBuffer mem mcs s.len) = .next (t.withBuffer mem mcs t.len) := by
  induction n generalizing s with
  | zero => cases h; rfl
  | succ n ih =>
    obtain ⟨u, hu, hr⟩ := run_succ_inv h
    have hk := step_quietKeeps hh hu
    rw [run_succ_next (step_withBuffer hh (fun _ => decoded_withBuffer_of_sameCodes hb hc) hu), ← hk.len]
    exact ih (hk.host.trans hh) (hb.trans hk.bp) (by rw [hk.inMem, hk.len]; exact hc) hr

/-! ## Bits behind the End-of-Information code (R67) -/

/-- A code decodes the same from every buffer that has its bits, up to LEN (R52, R75). -/
theorem decoded_withBuffer_of_sameBits {s : State} {i : Instr} {idx : Code} {w : Nat} (hd : s.decoded = .code i idx w)
    (hl : s.bitPos + w ≤ 8 * len) (hm : SameBits s.inMem mem s.bitPos (s.bitPos + w)) :
    (s.withBuffer mem mcs len).decoded = s.decoded := by
  obtain ⟨-, hok, hneed, -, -⟩ := decodeWindow_code hd
  have h16 := ((widthOk_iff w).mp hok).2
  have hoff := s.off.isLt
  unfold codeNeed at hneed
  unfold State.bitPos at hl hm
  rw [hd]
  refine decodeWindow_congr (ctx := s.ctx) (off := s.off) hd ?_ fun b hb => ?_
  · simp only [State.withBuffer, codeNeed]
    omega
  · calc (s.withBuffer mem mcs len).win.getLsbD (s.off.toNat + b)
        = bufferBit mem (8 * s.bp + (s.off.toNat + b)) := by
          rw [win_getLsbD _ (by omega), inBit_of_lt (by simp only [State.withBuffer]; omega)]
          rfl
      _ = bufferBit s.inMem (8 * s.bp + (s.off.toNat + b)) := (hm _ (by omega) (by omega)).symm
      _ = s.win.getLsbD (s.off.toNat + b) := by rw [win_getLsbD _ (by omega), inBit_of_lt (by omega)]

theorem run_withBuffer_of_sameBits (n : Nat) {s t : State} (hh : s.host = []) (h : core.run n s = .next t)
    (hdone : t.phase = .done) (hl : t.bitPos ≤ 8 * len) (hm : SameBits s.inMem mem s.bitPos t.bitPos) :
    core.run n (s.withBuffer mem mcs len) = .next (t.withBuffer mem mcs len) := by
  induction n generalizing s with
  | zero => cases h; rfl
  | succ n ih =>
    obtain ⟨u, hu, hr⟩ := run_succ_inv h
    have hk := step_quietKeeps hh hu
    have hut := (run_quietKeeps (hk.host.trans hh) hr).bitPos
    have hd : s.phase = .run → (s.withBuffer mem mcs len).decoded = s.decoded := by
      intro hrun
      rcases step_next_quiet hh hu with ⟨hn, -⟩ | ⟨i, idx, w, -, hc, he⟩ | ⟨-, -, rfl⟩
      · exact absurd hrun hn
      · have hw : s.bitPos + w ≤ t.bitPos := by rwa [exec_bitPos he, bitPos_advance] at hut
        exact decoded_withBuffer_of_sameBits hc (hw.trans hl) fun b h₁ h₂ => hm b h₁ (h₂.trans_le hw)
      · have hf := (run_quiescent (s := raiseTruncated s) n hh nofun).symm.trans hr
        cases hf
        cases hdone
    rw [run_succ_next (step_withBuffer hh hd hu)]
    exact ih (hk.host.trans hh) hr (by rw [hk.inMem]; exact fun b h₁ h₂ => hm b (hk.bitPos.trans h₁) h₂)

end Sys2Proof.Machine
end

section
/-! PROOFS. What START gives, and what the host reads in each STATE (rules R24, R29, R58, R60, R68). -/

namespace Sys2Proof.Machine

/-- START with a legal K reads of the state it is issued in no element of the block (R24, R60, R113). -/
theorem startLegal_congr {s s' : State} (k : BitVec 9) (len : Nat) (hm : s.inMem = s'.inMem)
    (hc : s.dictCap = s'.dictCap) (hh : s.host = s'.host) (hf : s.free = s'.free) :
    startLegal k len s = startLegal k len s' := by
  simp only [startLegal, latchedMcs, State.memByte, State.unspecified, hm, hc, hh, hf]

theorem startCommand_congr {s s' : State} {k : BitVec 9} (len : Nat) (hk : legalK k = true) (hp : s.phase ≠ .run)
    (hp' : s'.phase ≠ .run) (hm : s.inMem = s'.inMem) (hc : s.dictCap = s'.dictCap) (hh : s.host = s'.host)
    (hf : s.free = s'.free) : startCommand k len s = startCommand k len s' := by
  by_cases hcap : k.toNat + 2 ≤ s.dictCap
  · rw [startCommand_legal hp hk hcap, startCommand_legal hp' hk (hc ▸ hcap), startLegal_congr k len hm hc hh hf]
  · rw [startCommand_small hp hk (by omega), startCommand_small hp' hk (by omega)]

/-- Before a run is over the host reads neither results nor warnings (R29). -/
theorem hostView_of_not_over {s : State} (hd : s.phase ≠ .done) (hf : s.phase ≠ .fault) :
    s.hostView =
      { stateNum := s.phase.num, done := false, fault := false, out := none, outCount := none, err := none,
        errInfo := none, warnings := none, warnCount := s.warnCount, mcs := s.mcs } := by
  simp [State.hostView, State.doneLine, State.faultLine, hd, hf]

theorem hostView_of_done {s : State} (h : s.phase = .done) :
    s.hostView =
      { stateNum := 2#2, done := true, fault := false, out := some s.out, outCount := some s.outCount, err := none,
        errInfo := none, warnings := some s.warnLog, warnCount := s.warnCount, mcs := s.mcs } := by
  simp [State.hostView, State.doneLine, State.faultLine, Phase.num, h]

theorem hostView_of_fault {s : State} (h : s.phase = .fault) :
    s.hostView =
      { stateNum := 3#2, done := false, fault := true, out := none, outCount := none, err := some s.err.num,
        errInfo := some s.errInfo, warnings := some s.warnLog, warnCount := s.warnCount, mcs := s.mcs } := by
  simp [State.hostView, State.doneLine, State.faultLine, Phase.num, h]

theorem result_of_not_over {s : State} (hd : s.phase ≠ .done) (hf : s.phase ≠ .fault) : s.result = none := by
  cases h : s.phase with
  | done => exact absurd h hd
  | fault => exact absurd h hf
  | idle | run => simp only [State.result, h]

theorem result_of_done {s : State} (h : s.phase = .done) : s.result = some (.ok s.out s.warnLog) := by
  simp only [State.result, h]

theorem result_of_fault {s : State} (h : s.phase = .fault) : s.result = some (.error s.err s.warnLog) := by
  simp only [State.result, h]

end Sys2Proof.Machine
end

section
/-! PROOFS. The statements of the family 10_state. -/

namespace Sys2Proof

open Machine Safety

/-- Settles O57: two inductions on the number of steps. Each step commutes with the change of buffer because the decoder
reads the same: in (1) its whole window is the same, in (2) the code's bits are, which the position at DONE bounds. -/
theorem onlyCodeBytesMatter : Obligations.OnlyCodeBytesMatter := by
  refine ⟨fun n s t mem mcs hh hb hc h => ?_, fun n s t mem mcs len hh h hdone hl hm => ?_⟩
  · exact run_withBuffer_of_sameCodes n hh hb hc h
  · exact run_withBuffer_of_sameBits n hh h hdone hl hm

/-- Settles O41: the elements that `CodeKeeps` lists, and with IN and LEN every byte the block reads. -/
theorem codesLeaveInputAndPosition : Obligations.CodesLeaveInputAndPosition := by
  intro i s t h
  have hk := exec_keeps h
  exact ⟨hk.k, hk.len, hk.mcs, hk.orig, hk.dictCap, hk.bp, hk.off, hk.width, hk.code, hk.ncodes, hk.host, hk.inMem,
    memByte_congr hk.inMem hk.len⟩

/-- Settles O43: an emitting code ends in one of the four ways of `Emitted`, after its warning where it is BYD. -/
theorem emittingCodesFrame : Obligations.EmittingCodesFrame := by
  intro i s t hclr heoi h
  have hw := exec_warnLog h
  rcases exec_next h with ⟨hi, -⟩ | ⟨hi, -⟩ | ⟨-, -, he⟩
  · exact absurd hi hclr
  · exact absurd hi heoi
  · refine ⟨fun c hc => ?_, exec_out_prefix h, fun hi => ?_, ?_, ?_⟩
    · rw [he.dict_getElem? (by rwa [recordBeyond_size]), recordBeyond_dict]
    · rw [hw, recordBeyond_of_ne s hi]
    · rintro c rfl
      exact hw
    · simpa using he.status

/-- Settles O50: EXTRACT moves the position by the width, no code moves it again, and a truncated code does not. -/
theorem positionOnlyMovesForward : Obligations.PositionOnlyMovesForward := by
  intro s t hr hb h
  rcases step_next_blockTurn hr hb h with ⟨i, idx, w, hd, he⟩ | ⟨-, rfl⟩
  · left
    obtain ⟨rfl, -⟩ := decodeWindow_code hd
    exact (exec_bitPos he).trans (bitPos_advance _ _ _)
  · exact .inr ⟨rfl, rfl, rfl, rfl⟩

/-- Settles O52: outside RUN a step is no STEP of the block, so without a command it is a turn that holds the block. -/
theorem onlyCommandsLeaveQuiescence : Obligations.OnlyCommandsLeaveQuiescence := by
  intro s t hp h hc
  rcases step_next_turn h with ⟨hr, -⟩ | ⟨ht, -⟩ | ⟨hc', -⟩
  · exact absurd hr hp
  · exact ht
  · exact absurd hc' hc

/-- Settles O54: the former histories are the beginning of the new ones, so the events are what is appended; a warning is
appended by BYD alone. -/
theorem outputOnlyAppended : Obligations.OutputOnlyAppended := by
  refine ⟨fun s t hc h => ?_, fun s t hc h => portEvents_of_commandTurn hc h,
    fun s t c idx w hr hb hd h => portEvents_warn_of_beyond hr hb hd h, fun s t h hw => beyond_of_portEvents_warn h hw⟩
  obtain ⟨ho, hw⟩ := step_histories hc h
  have hw' : t.warnLog = s.warnLog ++ (portEvents s t).warn := (List.prefix_iff_eq_append.mp hw).symm
  refine ⟨ho, (List.prefix_iff_eq_append.mp ho).symm, hw', ?_⟩
  rw [State.warnCount, State.warnCount, hw', List.length_append]

/-- Settles O55: no code writes either, a holding turn writes IN only where it is the host's write, no command does. -/
theorem inputNeverWrittenByBlock : Obligations.InputNeverWrittenByBlock := by
  intro s t h
  rcases step_next_turn h with ⟨hr, hb⟩ | ⟨ht, hm⟩ | ⟨-, -, -, hm, hd⟩
  · rcases step_next_blockTurn hr hb h with ⟨i, idx, w, -, he⟩ | ⟨-, rfl⟩
    · exact ⟨(exec_keeps he).dictCap, fun _ => (exec_keeps he).inMem⟩
    · exact ⟨rfl, fun _ => rfl⟩
  · have hd := congrArg State.dictCap ht
    exact ⟨hd, hm⟩
  · exact ⟨hd, fun _ => hm⟩

/-- Settles O7: the three bytes are those the block reads at BP, BP+1 and BP+2. -/
theorem windowIsBufferAtBp : Obligations.WindowIsBufferAtBp := fun s =>
  ⟨s.memByte s.bp, s.memByte (s.bp + 1), s.memByte (s.bp + 2), windowOf_toNat _ _ _,
    memByte_of_lt, memByte_of_le, memByte_of_lt, memByte_of_le, memByte_of_lt, memByte_of_le⟩

/-- Settles O18: no STEP is enabled outside RUN, whether or not the host has a `pass` to come, and a `wait` only waits. -/
theorem quiescentBlockHolds : Obligations.QuiescentBlockHolds := by
  refine fun s => ⟨fun hp hh => ?_, fun rest hp hh => ?_, fun rest hh => step_wait hh⟩
  · rw [step_nil hh, stepBlock_quiescent hp]
  · rw [step_pass hh, stepBlock_quiescent (s := { s with host := rest }) hp]

/-- Settles O21: `State.reset` holds the values that R31 and R10 state. -/
theorem resetState : Obligations.ResetState :=
  ⟨rfl, rfl, rfl, rfl, rfl, rfl, rfl⟩

/-- Settles O26: START writes every element of the block, or is refused for the capacity, the same in both states. -/
theorem startInheritsNothing : Obligations.StartInheritsNothing := by
  intro s s' k len rest hh hh' hp hp' hk hm hc hf
  rw [step_start hh, step_start hh']
  exact startCommand_congr len hk hp hp' hm hc rfl hf

/-- Settles O45: IN and OUT are empty, and STATE is IDLE, so nothing of a run is asked. -/
theorem resetMeetsInvariant : Obligations.ResetMeetsInvariant where
  memWf := reset_inMem_wf
  capMax := le_rfl
  outBelowK := nofun
  errPhase := iff_of_true rfl nofun
  inRun := nofun

/-- Settles O56: the host's view in each STATE, with the result. -/
theorem hostReadsResultOnly : Obligations.HostReadsResultOnly := by
  refine ⟨fun s => ⟨fun h => ?_, fun h => ?_, fun h => ?_, fun h => ?_, fun h => ?_, rfl, rfl⟩, rfl, rfl, rfl, rfl, rfl,
    rfl⟩
  · rw [hostView_of_not_over (by simp [h]) (by simp [h]), h]
    exact ⟨rfl, rfl, rfl⟩
  · rw [hostView_of_not_over (by simp [h]) (by simp [h]), h]
    exact ⟨rfl, rfl, rfl⟩
  · rw [hostView_of_done h, result_of_done h]
    exact ⟨rfl, rfl, rfl, rfl, rfl, rfl, rfl, rfl, rfl⟩
  · rw [hostView_of_fault h, result_of_fault h]
    exact ⟨rfl, rfl, rfl, rfl, rfl, rfl, rfl, rfl, rfl⟩
  · have hd : s.phase ≠ .done := by rcases h with h | h <;> simp [h]
    have hf : s.phase ≠ .fault := by rcases h with h | h <;> simp [h]
    rw [hostView_of_not_over hd hf, result_of_not_over hd hf]
    exact ⟨rfl, rfl, rfl, rfl, rfl, rfl⟩

end Sys2Proof
end

section
/-! PROOFS. The encoder and the decoder against each other, bit by bit: packed bits read back through the window, and a
value and its class determine each other (rules R35, R48, R53, R57). -/

namespace Sys2Proof

open Machine Laws

/-! ## Packed bits (R35, R57) -/

/-- Bit n of the number that a list of bits stands for is the list's item n. -/
theorem bitsNat_testBit (bits : List Bool) (n : Nat) : (bitsNat bits).testBit n = bits.getD n false := by
  induction bits generalizing n with
  | nil => simp [bitsNat]
  | cons b bs ih =>
    rw [bitsNat, Nat.add_comm, ← Nat.bit_val]
    cases n with
    | zero => rw [Nat.testBit_bit_zero, List.getD_cons_zero]
    | succ n => rw [Nat.testBit_bit_succ, ih, List.getD_cons_succ]

theorem packBits_length (bits : List Bool) : (packBits bits).length = (bits.length + 7) / 8 := by
  simp [packBits]

/-- Bit r of byte j of the packed area is bit 8*j + r, and 0 behind the last one (R35, R57). -/
theorem packBits_getLsbD (bits : List Bool) (j : Nat) {r : Nat} (hr : r < 8) :
    ((packBits bits).getD j 0#8).getLsbD r = bits.getD (8 * j + r) false := by
  by_cases hj : j < (bits.length + 7) / 8
  · have hbyte : (packBits bits).getD j 0#8 = BitVec.ofNat 8 (bitsNat ((bits.drop (8 * j)).take 8)) := by
      simp [packBits, hj]
    rw [hbyte, BitVec.getLsbD_ofNat, bitsNat_testBit]
    simp [hr]
  · have hbyte : (packBits bits).getD j 0#8 = 0#8 := List.getD_eq_default _ _ (by rw [packBits_length]; omega)
    rw [hbyte, List.getD_eq_default _ _ (by omega), BitVec.getLsbD_zero]

/-- The window over packed bits has them in their order (R35, R36). -/
theorem windowOf_packBits_getLsbD (bits : List Bool) {n : Nat} (hn : n < 24) :
    (windowOf ((packBits bits).getD 0 0#8) ((packBits bits).getD 1 0#8) ((packBits bits).getD 2 0#8)).getLsbD n =
      bits.getD n false := by
  rw [windowOf_getLsbD]
  split
  · rw [packBits_getLsbD bits 0 (by omega), Nat.mul_zero, Nat.zero_add]
  · split
    · rw [packBits_getLsbD bits 1 (by omega), show 8 * 1 + (n - 8) = n by omega]
    · rw [packBits_getLsbD bits 2 (by omega), show 8 * 2 + (n - 16) = n by omega]

/-! ## A code's bits (R35, R48, R52) -/

theorem encode_length (ctx : CodeCtx) (i : Instr) : (encode ctx i).length = codeWidth ctx.size := by
  simp [encode, bitsLsbFirst]

/-- Among other bits, bit b of a code's value stands b bits behind the code's first bit. -/
theorem getD_encode {ctx : CodeCtx} {i : Instr} (before after : List Bool) {b : Nat} (hb : b < codeWidth ctx.size) :
    (before ++ encode ctx i ++ after).getD (before.length + b) false = (codeIdx ctx i).testBit b := by
  rw [List.append_assoc, List.getD_append_right _ _ _ _ (Nat.le_add_right _ _), Nat.add_sub_cancel_left,
    List.getD_append _ _ _ _ (by rwa [encode_length])]
  simp [encode, bitsLsbFirst, hb]

/-- The window's bits from OFF on, when they are those of a number that the width holds, have it as their value. -/
theorem codeValue_eq_ofNat {win : BitVec 24} {off : BitVec 3} {w n : Nat} (hw : w ≤ 16) (hn : n < 2 ^ w)
    (h : ∀ b, b < w → win.getLsbD (off.toNat + b) = n.testBit b) : codeValue win off w = BitVec.ofNat 16 n := by
  apply BitVec.eq_of_getLsbD_eq
  intro b hb
  rw [codeValue_getLsbD hw, BitVec.getLsbD_ofNat, decide_eq_true hb, Bool.true_and]
  by_cases hbw : b < w
  · rw [h b hbw, decide_eq_true hbw, Bool.true_and]
  · rw [decide_eq_false hbw, Bool.false_and,
      Nat.testBit_lt_two_pow (hn.trans_le (Nat.pow_le_pow_right (by omega) (by omega)))]

/-- A code's value fits its width (R48). -/
theorem codeValue_lt (win : BitVec 24) (off : BitVec 3) {w : Nat} (hw : w ≤ 16) :
    (codeValue win off w).toNat < 2 ^ w := by
  apply Nat.lt_pow_two_of_testBit
  intro b hb
  rw [BitVec.testBit_toNat, codeValue_getLsbD hw, decide_eq_false (by omega), Bool.false_and]

/-! ## A value and its class (R53) -/

theorem widthOk_of_wellFormed {ctx : CodeCtx} (hc : ctx.wellFormed = true) : widthOk (codeWidth ctx.size) = true := by
  simp only [CodeCtx.wellFormed, Bool.and_eq_true] at hc
  exact hc.2

theorem codeIdx_lt_of_wellFormed {ctx : CodeCtx} {i : Instr} (hi : i.wellFormed ctx = true) :
    codeIdx ctx i < 2 ^ codeWidth ctx.size := by
  simp only [Instr.wellFormed, Instr.fits, Bool.and_eq_true, decide_eq_true_eq] at hi
  exact hi.2

/-- The tests of R53 give back every code that can be written, from its value. -/
theorem classify_codeIdx {ctx : CodeCtx} {i : Instr} (hc : ctx.wellFormed = true) (hi : i.wellFormed ctx = true) :
    classify ctx (BitVec.ofNat 16 (codeIdx ctx i)) = i := by
  cases i with
  | clr => exact ClassOfValue.clr ctx hc hi
  | eoi => exact ClassOfValue.eoi ctx hc hi
  | lit n => exact ClassOfValue.lit n ctx hc hi
  | ref c => exact ClassOfValue.ref c ctx hc hi
  | imp => exact ClassOfValue.imp ctx hc hi
  | byd c => exact ClassOfValue.byd c ctx hc hi

/-- The class that R53 picks for a value has that value, and its condition holds. -/
theorem codeIdx_and_inClass_classify (ctx : CodeCtx) (idx : Code) :
    codeIdx ctx (classify ctx idx) = idx.toNat ∧ (classify ctx idx).inClass ctx = true := by
  unfold classify
  split
  · exact ⟨Eq.symm ‹_›, rfl⟩
  · split
    · exact ⟨Eq.symm ‹_›, rfl⟩
    · split
      · exact ⟨rfl, decide_eq_true ‹_›⟩
      · split
        · exact ⟨rfl, decide_eq_true (by omega)⟩
        · split
          · exact ⟨Eq.symm ‹_›, rfl⟩
          · exact ⟨rfl, decide_eq_true (by omega)⟩

end Sys2Proof
end

section
/-! PROOFS. The host's write of a byte of IN, and what a step can do to IN (rules R33, R114, R115). -/

namespace Sys2Proof.Machine

theorem writeInCommand_run (a : Nat) (b : Byte) {s : State} (h : s.phase = .run) :
    writeInCommand a b s = .refused .inWrittenDuringRun :=
  if_pos h

theorem writeInCommand_quiescent (a : Nat) (b : Byte) {s : State} (h : s.phase ≠ .run) :
    writeInCommand a b s = .next { s with inMem := Memory.write s.inMem a b } :=
  if_neg h

/-- A write of the host that answers a next state has written its byte. -/
theorem writeInCommand_inMem {a : Nat} {b : Byte} {s t : State} (h : writeInCommand a b s = .next t) :
    t.inMem = Memory.write s.inMem a b := by
  by_cases hr : s.phase = .run
  · rw [writeInCommand_run a b hr] at h
    cases h
  · rw [writeInCommand_quiescent a b hr] at h
    cases h
    rfl

/-- A step leaves IN, or is the host's write of one byte of it. -/
theorem step_inMem {s t : State} (h : step s = .next t) :
    t.inMem = s.inMem ∨ ∃ a b, t.inMem = Memory.write s.inMem a b := by
  by_cases hw : ∃ a b rest, s.host = .writeIn a b :: rest
  · obtain ⟨a, b, rest, hh⟩ := hw
    rw [step_writeIn hh] at h
    exact .inr ⟨a, b, writeInCommand_inMem (s := { s with host := rest }) h⟩
  · exact .inl ((inputNeverWrittenByBlock s t h).2 fun a b rest hh => hw ⟨a, b, rest, hh⟩)

end Sys2Proof.Machine
end

section
/-! PROOFS. The statements of the family 20_memory. -/

namespace Sys2Proof

open Machine

/-- Settles O14: the window over the packed bits has the code's own bits from OFF on, so its value is the code's, and
the tests of R53 give the code back from it. -/
theorem decodeOfEncode : Obligations.DecodeOfEncode := by
  intro ctx i off before after hc hi hlen
  have hok := widthOk_of_wellFormed hc
  have hw := ((widthOk_iff _).mp hok).2
  have hneed : codeNeed off (codeWidth ctx.size) ≤ (packBits (before ++ encode ctx i ++ after)).length := by
    rw [packBits_length, List.length_append, List.length_append, encode_length, hlen, codeNeed]
    omega
  rw [decodeBytes, decodeWindow_of_le hok hneed, codeValue_eq_ofNat hw (codeIdx_lt_of_wellFormed hi),
    classify_codeIdx hc hi]
  intro b hb
  rw [windowOf_packBits_getLsbD _ (by omega), ← hlen, getD_encode before after hb]

/-- Settles O8: EXTRACT writes the window's value, whose bits are those of IN from the position on. -/
theorem codeBitsAreLsbFirst : Obligations.CodeBitsAreLsbFirst := by
  intro s t i h
  obtain ⟨idx, w, hd, rfl⟩ := extract_code h
  obtain ⟨hwidth, hok, -, hval, hclass⟩ := decodeWindow_code hd
  have hw := ((widthOk_iff w).mp hok).2
  rw [ctx_size] at hwidth
  rw [← hwidth, advance_code, advance_width, advance_ncodes]
  refine ⟨fun b hb => ?_, fun b hb => ?_, bitPos_advance idx w s, ?_, rfl, hclass⟩
  · rw [hval, codeValue_getLsbD hw, decide_eq_true hb, Bool.true_and, win_getLsbD s (by omega), Nat.add_assoc]
  · rw [hval, codeValue_getLsbD hw, decide_eq_false (by omega), Bool.false_and]
  · exact Nat.mod_eq_of_lt (by omega)

/-- Settles O15: the class is the one whose value was read, and that value fits the width and has the window's bits. -/
theorem encodeOfDecode : Obligations.EncodeOfDecode := by
  intro ctx off avail win i idx w _ hd
  obtain ⟨rfl, hok, -, hval, rfl⟩ := decodeWindow_code hd
  have hw := ((widthOk_iff _).mp hok).2
  obtain ⟨hidx, hin⟩ := codeIdx_and_inClass_classify ctx idx
  have hfits : (classify ctx idx).fits ctx = true := by
    rw [Instr.fits, hidx, hval]
    exact decide_eq_true (codeValue_lt win off hw)
  refine ⟨rfl, by rw [Instr.wellFormed, hin, hfits, Bool.true_and], hidx.symm, ?_⟩
  rw [encode, bitsLsbFirst, hidx, hval]
  refine List.map_congr_left fun b hb => ?_
  have hb := List.mem_range.mp hb
  rw [BitVec.testBit_toNat, codeValue_getLsbD hw, decide_eq_true hb, Bool.true_and]

/-- Settles O47: a step that changes IN writes one byte of it, and a write keeps the canonical form. -/
theorem stepKeepsCanonicalInput : Obligations.StepKeepsCanonicalInput := by
  intro s t hwf h
  rcases step_inMem h with hm | ⟨a, b, hm⟩
  · rwa [hm]
  · rw [hm]
    exact Memory.wf_write a b hwf

/-- Settles O16: the decoder evaluated on each of the six words. -/
theorem wordsOfTheSpec : Obligations.WordsOfTheSpec :=
  ⟨by decide, by decide, by decide, by decide, by decide, by decide⟩

/-- Settles O27: in RUN the write is refused; outside it the byte goes into IN alone, and IN reads as a memory does. -/
theorem hostPlacesOneByte : Obligations.HostPlacesOneByte := by
  intro s a b rest hh
  rw [step_writeIn hh]
  refine ⟨fun hr => writeInCommand_run a b hr, fun hr hwf => ⟨_, writeInCommand_quiescent a b hr, rfl, ?_, ?_⟩⟩
  · exact Memory.read_write_same a b hwf
  · exact fun x hx => Memory.read_write_other s.inMem b hx

end Sys2Proof
end

section
/-! PROOFS. The width of a code: the least exponent, its bounds, the clamp of 13 (rules R48, R50, R51, R70 to R72). -/

namespace Sys2Proof

open Machine Safety

/-- clog2 is the least exponent of two that reaches n (R70). -/
theorem clog2_le_iff (n c : Nat) : clog2 n ≤ c ↔ n ≤ 2 ^ c := by
  unfold clog2
  split
  · exact iff_of_true (Nat.zero_le c) (le_trans ‹n ≤ 1› Nat.one_le_two_pow)
  · rw [Nat.succ_le_iff, Nat.log2_lt (by omega)]
    omega

theorem lt_clog2_iff (n c : Nat) : c < clog2 n ↔ 2 ^ c < n := by
  rw [← not_le, clog2_le_iff, not_le]

theorem le_two_pow_clog2 (n : Nat) : n ≤ 2 ^ clog2 n :=
  (clog2_le_iff n _).mp le_rfl

/-- The sizes above one power of two, up to the next one, have the exponent of the latter. -/
theorem clog2_eq_of_bounds {n c : Nat} (hlo : 2 ^ c < n) (hhi : n ≤ 2 ^ (c + 1)) : clog2 n = c + 1 :=
  le_antisymm ((clog2_le_iff n _).mpr hhi) ((lt_clog2_iff n c).mpr hlo)

/-- The exponent 13 belongs to the sizes 4097 to 8192 (R71). -/
theorem clog2_eq_thirteen_iff (n : Nat) : clog2 n = 13 ↔ 4097 ≤ n ∧ n ≤ 8192 := by
  have hlo := lt_clog2_iff n 12
  have hhi := clog2_le_iff n 13
  omega

theorem codeWidth_of_clog2_eq_thirteen {n : Nat} (h : clog2 n = 13) : codeWidth n = 12 :=
  if_pos h

theorem codeWidth_of_clog2_ne_thirteen {n : Nat} (h : clog2 n ≠ 13) : codeWidth n = clog2 n :=
  if_neg h

/-- From size 3 on a code has at least two bits (R48). -/
theorem two_le_codeWidth {n : Nat} (hn : 3 ≤ n) : 2 ≤ codeWidth n := by
  have h : 1 < clog2 n := (lt_clog2_iff n 1).mpr hn
  unfold codeWidth
  split <;> omega

/-- Up to the greatest dictionary size a code has at most sixteen bits (R72). -/
theorem codeWidth_le_sixteen {n : Nat} (hn : n ≤ 65536) : codeWidth n ≤ 16 := by
  have h : clog2 n ≤ 16 := (clog2_le_iff n 16).mpr hn
  unfold codeWidth
  split <;> omega

/-- Every size of the block has a width the format has (R48, R72). -/
theorem widthOk_codeWidth {n : Nat} (hlo : 4 ≤ n) (hhi : n ≤ 65536) : widthOk (codeWidth n) = true :=
  (widthOk_iff _).mpr ⟨two_le_codeWidth (by omega), codeWidth_le_sixteen hhi⟩

/-! ## The tables of R50 and R51 -/

/-- Each row of R50: its sizes lie above one power of two and up to the next, and 13 is replaced. -/
theorem widthRows_bounds : ∀ r ∈ widthRows,
    2 ^ (r.2.2.1 - 1) < r.1 ∧ r.2.1 ≤ 2 ^ (r.2.2.1 - 1 + 1) ∧ r.2.2.1 - 1 + 1 = r.2.2.1 ∧
      r.2.2.2.1 = (if r.2.2.1 = 13 then 12 else r.2.2.1) ∧ r.2.2.2.2 = 2 ^ r.2.2.2.1 - 1 := by
  decide

/-- The rows of R50 follow one another from 4 to 65536. -/
theorem exists_widthRow {n : Nat} (hlo : 4 ≤ n) (hhi : n ≤ 65536) : ∃ r ∈ widthRows, r.1 ≤ n ∧ n ≤ r.2.1 := by
  simp only [widthRows, List.cons_append, List.nil_append, List.exists_mem_cons_iff, List.not_mem_nil, false_and,
    exists_false]
  omega

/-- Each row of R51: K+2 lies above a power of two, the next one holds K+1 and is the last size of the first width. -/
theorem firstWidthRows_bounds : ∀ r ∈ firstWidthRows,
    2 ^ (r.2.1 - 1) < r.1.toNat + 2 ∧ r.2.1 - 1 + 1 = r.2.1 ∧ r.2.1 < 12 ∧ r.1.toNat + 2 ≤ 2 ^ r.2.1 ∧
      r.2.2 = 2 ^ r.2.1 + 1 := by
  decide

/-! ## The legal K (R8) -/

/-- The legal K are those of the table of R51. -/
theorem legalK_iff {k : BitVec 9} : legalK k = true ↔ k ∈ firstWidthRows.map Prod.fst :=
  decide_eq_true_iff

theorem legalK_bounds {k : BitVec 9} (hk : legalK k = true) : 2 ≤ k.toNat ∧ k.toNat ≤ 256 := by
  have h : ∀ k ∈ firstWidthRows.map Prod.fst, 2 ≤ k.toNat ∧ k.toNat ≤ 256 := by decide
  exact h k (legalK_iff.mp hk)

/-- The values K and K+1 fit every width from size K+2 on: the exponent's own width holds them as SIZE does, and the
clamp leaves 12 bits (R54). -/
theorem succ_k_lt_two_pow_codeWidth {k : BitVec 9} {n : Nat} (hk : legalK k = true) (hn : k.toNat + 2 ≤ n) :
    k.toNat + 1 < 2 ^ codeWidth n := by
  by_cases h : clog2 n = 13
  · rw [codeWidth_of_clog2_eq_thirteen h]
    have hk256 := (legalK_bounds hk).2
    omega
  · rw [codeWidth_of_clog2_ne_thirteen h]
    exact hn.trans (le_two_pow_clog2 n)

end Sys2Proof
end

section
/-! PROOFS. A value is of exactly the class whose condition it meets (rule R53). -/

namespace Sys2Proof

/-- The tests of R53 pick the class whose value and condition the number has. -/
theorem classify_of_inClass {ctx : CodeCtx} {idx : Code} {i : Instr} (hs : ctx.k.toNat + 2 ≤ ctx.size)
    (hidx : idx.toNat = codeIdx ctx i) (hi : i.inClass ctx = true) : classify ctx idx = i := by
  cases i with
  | clr => exact if_pos hidx
  | eoi =>
    simp only [codeIdx] at hidx
    rw [classify, if_neg (by omega), if_pos hidx]
  | lit n =>
    obtain rfl : idx = n := BitVec.eq_of_toNat_eq hidx
    have hlt := of_decide_eq_true hi
    rw [classify, if_neg (by omega), if_neg (by omega), if_pos hlt]
  | ref c =>
    obtain rfl : idx = c := BitVec.eq_of_toNat_eq hidx
    obtain ⟨hlo, hhi⟩ := of_decide_eq_true hi
    rw [classify, if_neg (by omega), if_neg (by omega), if_neg (by omega), if_pos hhi]
  | imp =>
    simp only [codeIdx] at hidx
    rw [classify, if_neg (by omega), if_neg (by omega), if_neg (by omega), if_neg (by omega), if_pos hidx]
  | byd c =>
    obtain rfl : idx = c := BitVec.eq_of_toNat_eq hidx
    have hlt := of_decide_eq_true hi
    rw [classify, if_neg (by omega), if_neg (by omega), if_neg (by omega), if_neg (by omega), if_neg (by omega)]

theorem classify_eq_iff {ctx : CodeCtx} {idx : Code} {i : Instr} (hs : ctx.k.toNat + 2 ≤ ctx.size) :
    classify ctx idx = i ↔ idx.toNat = codeIdx ctx i ∧ i.inClass ctx = true := by
  refine ⟨?_, fun ⟨hidx, hi⟩ => classify_of_inClass hs hidx hi⟩
  rintro rfl
  obtain ⟨hidx, hi⟩ := codeIdx_and_inClass_classify ctx idx
  exact ⟨hidx.symm, hi⟩

/-- A condition on the operand, where the operand is the value, is a condition on the value. -/
theorem operand_iff {idx c : Code} {p : Code → Prop} : idx = c ∧ p c ↔ c = idx ∧ p idx := by
  constructor <;> rintro ⟨rfl, h⟩ <;> exact ⟨rfl, h⟩

/-- A value below SIZE is neither IMP nor BYD (R53). -/
theorem classify_ne_absent {ctx : CodeCtx} {idx : Code} (hs : ctx.k.toNat + 2 ≤ ctx.size) (h : idx.toNat < ctx.size) :
    classify ctx idx ≠ .imp ∧ ∀ c, classify ctx idx ≠ .byd c := by
  refine ⟨fun hc => ?_, fun c hc => ?_⟩ <;> obtain ⟨hidx, hin⟩ := (classify_eq_iff hs).mp hc
  · exact absurd hidx (Nat.ne_of_lt h)
  · have hlt : ctx.size < c.toNat := of_decide_eq_true hin
    simp only [codeIdx] at hidx
    omega

/-- The greatest value of the width is beyond the dictionary where SIZE is below it (R56). -/
theorem exists_byd_wellFormed {ctx : CodeCtx} (hw : codeWidth ctx.size ≤ 16)
    (h : ctx.size < 2 ^ codeWidth ctx.size - 1) : ∃ c : Code, (Instr.byd c).wellFormed ctx = true := by
  have h16 : 2 ^ codeWidth ctx.size ≤ 2 ^ 16 := Nat.pow_le_pow_right (by omega) hw
  have hval : (BitVec.ofNat 16 (2 ^ codeWidth ctx.size - 1)).toNat = 2 ^ codeWidth ctx.size - 1 :=
    Nat.mod_eq_of_lt (by omega)
  refine ⟨BitVec.ofNat 16 (2 ^ codeWidth ctx.size - 1), ?_⟩
  simp only [Instr.wellFormed, Instr.inClass, Instr.fits, codeIdx, hval, Bool.and_eq_true, decide_eq_true_eq]
  exact ⟨h, by omega⟩

end Sys2Proof
end

section
/-! PROOFS. The assembler's bits in the buffer, and the code the decoder reads of them (rules R34, R35, R57, R73). -/

namespace Sys2Proof

open Machine Safety

theorem nextCtx_k (ctx : CodeCtx) (pv : Bool) (i : Instr) : (nextCtx ctx pv i).1.k = ctx.k := by
  cases i with
  | clr | eoi | imp | byd => rfl
  | lit | ref => cases pv <;> rfl

/-- No code takes SIZE below K+2 (R85, R99). -/
theorem nextCtx_size_ge {ctx : CodeCtx} (pv : Bool) (i : Instr) (hs : ctx.k.toNat + 2 ≤ ctx.size) :
    (nextCtx ctx pv i).1.k.toNat + 2 ≤ (nextCtx ctx pv i).1.size := by
  rw [nextCtx_k]
  cases i with
  | clr => exact le_rfl
  | eoi => exact hs
  | imp | byd => exact hs.trans (Nat.le_succ _)
  | lit | ref =>
    cases pv with
    | false => exact hs
    | true => exact hs.trans (Nat.le_succ _)

/-- Every code of a stream adds at least two bits (R48, R57). -/
theorem two_mul_length_le_assembleBits {ctx : CodeCtx} (pv : Bool) (is : List Instr) (hk : 2 ≤ ctx.k.toNat)
    (hs : ctx.k.toNat + 2 ≤ ctx.size) : 2 * is.length ≤ (assembleBits ctx pv is).length := by
  induction is generalizing ctx pv with
  | nil => exact Nat.zero_le _
  | cons i is ih =>
    have hw := two_le_codeWidth (n := ctx.size) (by omega)
    have hrest := ih (nextCtx ctx pv i).2 (by rwa [nextCtx_k]) (nextCtx_size_ge pv i hs)
    rw [assembleBits, List.length_append, encode_length, List.length_cons]
    omega

/-- The steps that R66 allows are enough for the codes of a stream that START reads from a legal K (R57). -/
theorem length_le_stepBound_assemble {k : BitVec 9} (mcs : Byte) (is : List Instr) (hk : legalK k = true) :
    is.length ≤ stepBound (assemble mcs k is).length := by
  have hbits := two_mul_length_le_assembleBits (ctx := { k := k, size := k.toNat + 2 }) false is
    (legalK_bounds hk).1 le_rfl
  rw [stepBound, assemble, List.length_cons, packBits_length]
  omega

end Sys2Proof

namespace Sys2Proof.Machine

/-- The bits of IN from the position on, all of them before bit 8*LEN, begin with the list. -/
def State.Reads (s : State) (bits : List Bool) : Prop :=
  s.bitPos + bits.length ≤ 8 * s.len ∧ ∀ b, b < bits.length → s.inBit (s.bitPos + b) = bits.getD b false

theorem inBit_congr {s t : State} (hm : t.inMem = s.inMem) (hl : t.len = s.len) (n : Nat) : t.inBit n = s.inBit n := by
  rw [State.inBit, State.inBit, memByte_congr hm hl]

/-- Behind the first bits, the position being moved past them, stand the others. -/
theorem State.Reads.behind {s t : State} {front back : List Bool} (h : s.Reads (front ++ back))
    (hm : t.inMem = s.inMem) (hl : t.len = s.len) (hp : t.bitPos = s.bitPos + front.length) : t.Reads back := by
  obtain ⟨hlen, hbits⟩ := h
  rw [List.length_append] at hlen
  refine ⟨by omega, fun b hb => ?_⟩
  have hbit := hbits (front.length + b) (by rw [List.length_append]; omega)
  rw [List.getD_append_right _ _ _ _ (Nat.le_add_right _ _), Nat.add_sub_cancel_left] at hbit
  rw [inBit_congr hm hl, hp, Nat.add_assoc, hbit]

/-- Where the bits of a code that can be written stand, the decoder reads that code (R57, R73, R75). -/
theorem decoded_of_reads_encode {s : State} {i : Instr} {back : List Bool} (hc : s.ctx.wellFormed = true)
    (hi : i.wellFormed s.ctx = true) (h : s.Reads (encode s.ctx i ++ back)) :
    s.decoded = .code i (BitVec.ofNat 16 (codeIdx s.ctx i)) (codeWidth s.ctx.size) := by
  have hok := widthOk_of_wellFormed hc
  have hw := ((widthOk_iff _).mp hok).2
  have hoff := s.off.isLt
  obtain ⟨hlen, hbits⟩ := h
  rw [List.length_append, encode_length, State.bitPos] at hlen
  have hneed : codeNeed s.off (codeWidth s.ctx.size) ≤ s.len - s.bp := by
    rw [codeNeed]
    omega
  rw [State.decoded, decodeWindow_of_le hok hneed, codeValue_eq_ofNat hw (codeIdx_lt_of_wellFormed hi),
    classify_codeIdx hc hi]
  intro b hb
  have hcode := getD_encode (i := i) [] back hb
  rw [List.nil_append, List.length_nil, Nat.zero_add] at hcode
  rw [win_getLsbD s (by omega), ← Nat.add_assoc, ← hcode]
  exact hbits b (by rw [List.length_append, encode_length]; omega)

/-- The state in which a code that stands at the position is performed: EXTRACT has moved past it (R63, R73). -/
def State.pastCode (s : State) (i : Instr) : State :=
  advance (BitVec.ofNat 16 (codeIdx s.ctx i)) (codeWidth s.ctx.size) s

/-- Where the bits of a code that can be written stand, a step performs that code and leaves the position at the bits
behind it (R57, R63). -/
theorem step_of_reads_encode {s t : State} {i : Instr} {back : List Bool} (hh : s.host = []) (hr : s.phase = .run)
    (hc : s.ctx.wellFormed = true) (hi : i.wellFormed s.ctx = true) (h : s.Reads (encode s.ctx i ++ back))
    (hexec : exec i (s.pastCode i) = .next t) : step s = .next t ∧ t.Reads back := by
  have hk := exec_keeps hexec
  constructor
  · rw [step_nil hh, stepBlock_run hr, stepCode_of_code (decoded_of_reads_encode hc hi h)]
    exact hexec
  · refine h.behind hk.inMem hk.len ?_
    rw [exec_bitPos hexec, State.pastCode, bitPos_advance, encode_length]

/-- A buffer that holds a minimum-code-size byte and packed bits reads the bits from byte 1 on (R34, R35). -/
theorem reads_of_packBits {s : State} {mcs : Byte} {bits : List Bool}
    (hm : s.inMem = Memory.writeBytes [] 0 (mcs :: packBits bits)) (hl : s.len = (mcs :: packBits bits).length)
    (hp : s.bitPos = 8) : s.Reads bits := by
  rw [List.length_cons, packBits_length] at hl
  refine ⟨by omega, fun b hb => ?_⟩
  have hbyte : (packBits bits).getD (b / 8) 0#8 = Memory.read s.inMem ((s.bitPos + b) / 8) := by
    have hread := Memory.read_writeBytes_same (m := []) 0 (mcs :: packBits bits) (b / 8 + 1)
      (by rw [List.length_cons, packBits_length]; omega) rfl
    rw [hm, hp, show (8 + b) / 8 = 0 + (b / 8 + 1) by omega, hread, List.getElem_cons_succ]
    exact List.getD_eq_getElem _ _ _
  rw [inBit_of_lt (by omega), bufferBit, ← hbyte, packBits_getLsbD bits _ (by omega)]
  congr 1
  omega

end Sys2Proof.Machine
end

section
/-! PROOFS. The base range of the dictionary: what its entries read as, and that LEARN finds no candidate in it (rules
R76, R78, R80, R82). -/

namespace Sys2Proof.Machine

open Safety

/-- Code i below K is the phrase of the one index i (R76). -/
theorem dictInit_getElem? {k : BitVec 9} {i : Nat} (h : i < k.toNat) : (dictInit k)[i]? = some [BitVec.ofNat 8 i] := by
  rw [dictInit, List.getElem?_append_left (by simpa using h)]
  simp [h]

/-- A dictionary whose base range is DICT_INIT's reads a literal's code as that literal (R76, R78). -/
theorem dict_getElem?_of_base {s : State} {x : Byte} (hbase : s.dict.take (s.k.toNat + 2) = dictInit s.k)
    (hx : x.toNat < s.k.toNat) : s.dict[x.toNat]? = some [x] := by
  have h := dictInit_getElem? hx
  rwa [← hbase, List.getElem?_take_of_lt (by omega), BitVec.ofNat_toNat, BitVec.setWidth_eq] at h

/-- LEARN's candidate has two indices or more, so no base entry is identical to it (R82). -/
theorem learn_of_base {s : State} {q : Phrase} {x : Byte} (horig : s.orig.toNat = s.k.toNat + 2)
    (hbase : s.dict.take (s.k.toNat + 2) = dictInit s.k) (hq : s.prev = some q) (hne : q ≠ []) :
    learn x s = dictAppend (q ++ [x]) s := by
  have hnot : q ++ [x] ∉ s.dict.take s.orig.toNat := by
    rw [horig, hbase]
    intro hmem
    have hle := dictInit_length_le hmem
    have hpos := List.length_pos_iff.mpr hne
    rw [List.length_append, List.length_singleton] at hle
    omega
  rw [learn_of_some hq, learnCandidate, State.baseHas, decide_eq_false hnot]
  rfl

end Sys2Proof.Machine
end

section
/-! PROOFS. A run over a stream of literals and an End-of-Information code (rules R57, R91, R92). -/

namespace Sys2Proof.Machine

open Safety

/-- The codes of a stream that is made of literals and an End-of-Information code. -/
def literalCodes (lits : List Byte) : List Instr :=
  lits.map (fun x => .lit (x.setWidth 16)) ++ [.eoi]

/-- The block in a run whose dictionary has its base range in place and room for an entry for each of the literals, and
in which no code has been beyond the dictionary. -/
structure LiteralsReady (s : State) (lits : List Byte) : Prop where
  quiet : s.host = []
  run : s.phase = .run
  kLegal : legalK s.k = true
  origEq : s.orig.toNat = s.k.toNat + 2
  base : s.dict.take (s.k.toNat + 2) = dictInit s.k
  prevNe : s.prev ≠ some []
  room : s.size + lits.length ≤ s.dictCap
  capMax : s.dictCap ≤ 65536
  below : BelowK s.k lits
  noWarn : s.warnLog = []

/-- What a literal that raises nothing leaves: its index emitted, an entry appended where a previous phrase existed, and
the literal as the previous phrase (R92, R99). -/
structure LiteralRead (x : Byte) (s t : State) : Prop extends CodeKeeps s t where
  out : t.out = s.out ++ [x]
  dict : ∃ new, t.dict = s.dict ++ new ∧ new.length = s.prevValid.toNat
  prev : t.prev = some [x]
  phase : t.phase = s.phase
  warnLog : t.warnLog = s.warnLog

variable {s t : State} {x : Byte} {lits : List Byte}

/-! ## The codes of the stream can be written -/

theorem LiteralsReady.size_ge (h : LiteralsReady s lits) : s.k.toNat + 2 ≤ s.size := by
  have hlen := congrArg List.length h.base
  rw [dictInit_length, List.length_take] at hlen
  exact (le_of_eq hlen.symm).trans (min_le_right _ _)

theorem LiteralsReady.ctx_wellFormed (h : LiteralsReady s lits) : s.ctx.wellFormed = true := by
  have hk := (legalK_bounds h.kLegal).1
  have hs := h.size_ge
  have hroom := h.room
  have hmax := h.capMax
  simp only [CodeCtx.wellFormed, Bool.and_eq_true, decide_eq_true_eq]
  exact ⟨hs, widthOk_codeWidth (by rw [ctx_size]; omega) (by rw [ctx_size]; omega)⟩

theorem LiteralsReady.eoi_wellFormed (h : LiteralsReady s lits) : Instr.eoi.wellFormed s.ctx = true :=
  decide_eq_true (succ_k_lt_two_pow_codeWidth h.kLegal h.size_ge)

/-- A literal's operand is its index (R92). -/
theorem toNat_literal (x : Byte) : (x.setWidth 16 : Code).toNat = x.toNat :=
  BitVec.toNat_setWidth_of_le (by omega)

theorem LiteralsReady.lit_lt (h : LiteralsReady s (x :: lits)) : x.toNat < s.k.toNat :=
  h.below x List.mem_cons_self

theorem LiteralsReady.lit_wellFormed (h : LiteralsReady s (x :: lits)) :
    (Instr.lit (x.setWidth 16)).wellFormed s.ctx = true := by
  have hx := h.lit_lt
  have hfits := succ_k_lt_two_pow_codeWidth h.kLegal h.size_ge
  simp only [Instr.wellFormed, Instr.inClass, Instr.fits, codeIdx, toNat_literal, Bool.and_eq_true, decide_eq_true_eq,
    ctx_k, ctx_size]
  exact ⟨hx, by omega⟩

/-! ## What a literal does (R92) -/

theorem LiteralsReady.pastCode (h : LiteralsReady s lits) (i : Instr) : LiteralsReady (s.pastCode i) lits :=
  ⟨h.quiet, h.run, h.kLegal, h.origEq, h.base, h.prevNe, h.room, h.capMax, h.below, h.noWarn⟩

/-- A literal raises nothing: its entry is in the base range, and where LEARN appends there is room. -/
theorem LiteralsReady.exec_lit (h : LiteralsReady s (x :: lits)) :
    ∃ t, exec (.lit (x.setWidth 16)) s = .next t ∧ LiteralRead x s t := by
  have hroom : s.size + (lits.length + 1) ≤ s.dictCap := h.room
  have hlit : exec (.lit (x.setWidth 16)) s = (performKnown x.toNat s).outcome := by
    rw [exec, execLit, toNat_literal, if_pos h.lit_lt]
  rw [hlit, performKnown, withPhrase_of_some (dict_getElem?_of_base h.base h.lit_lt)]
  cases hq : s.prev with
  | none =>
    rw [learn_of_none (s := emit [x] s) hq, andThen_cont, outcome_cont]
    exact ⟨_, rfl, (Emitted.kept _).keeps, rfl, ⟨[], by simp, by simp [State.prevValid, hq]⟩, rfl, rfl, rfl⟩
  | some q =>
    have hne : q ≠ [] := fun hnil => h.prevNe (hnil ▸ hq)
    have hspace : (emit [x] s).size ≠ (emit [x] s).dictCap := by
      rw [emit_size, emit_dictCap]
      omega
    rw [learn_of_base (s := emit [x] s) h.origEq h.base hq hne, dictAppend_of_room hspace, andThen_cont, outcome_cont]
    exact ⟨_, rfl, (Emitted.appended _ _).keeps, rfl, ⟨[q ++ [x]], rfl, by simp [State.prevValid, hq]⟩, rfl, rfl, rfl⟩

theorem LiteralRead.size_eq (h : LiteralRead x s t) : t.size = s.size + s.prevValid.toNat := by
  obtain ⟨new, hdict, hnew⟩ := h.dict
  rw [State.size, hdict, List.length_append, hnew, State.size]

/-- What the assembler reckons after a literal is what the block has after it (R57, R99). -/
theorem LiteralRead.nextCtx_eq (h : LiteralRead x s t) (c : Code) :
    nextCtx s.ctx s.prevValid (.lit c) = (t.ctx, t.prevValid) := by
  have hpv : t.prevValid = true := by rw [State.prevValid, h.prev, Option.isSome_some]
  rw [nextCtx, hpv, State.ctx, State.ctx, h.k, h.size_eq]
  cases s.prevValid <;> rfl

/-- The first literal takes at most one entry of the room, so the block stays ready for the others. -/
theorem LiteralsReady.of_literalRead (h : LiteralsReady s (x :: lits)) (hr : LiteralRead x s t) :
    LiteralsReady t lits where
  quiet := hr.host.trans h.quiet
  run := hr.phase.trans h.run
  kLegal := by rw [hr.k]; exact h.kLegal
  origEq := by rw [hr.k, hr.orig]; exact h.origEq
  base := by
    obtain ⟨new, hdict, -⟩ := hr.dict
    rw [hr.k, hdict, List.take_append_of_le_length h.size_ge, h.base]
  prevNe := by rw [hr.prev]; nofun
  room := by
    have hroom : s.size + (lits.length + 1) ≤ s.dictCap := h.room
    have hone := Bool.toNat_le s.prevValid
    rw [hr.size_eq, hr.dictCap]
    omega
  capMax := by rw [hr.dictCap]; exact h.capMax
  below y hy := by rw [hr.k]; exact h.below y (List.mem_cons_of_mem x hy)
  noWarn := hr.warnLog.trans h.noWarn

/-! ## The run (R65, R91, R92) -/

/-- The block is about to read the literals and then the End-of-Information code, as the assembler writes them (R57). -/
structure AtLiterals (s : State) (lits : List Byte) : Prop extends LiteralsReady s lits where
  stream : s.Reads (assembleBits s.ctx s.prevValid (literalCodes lits))

/-- A step reads the first literal and leaves the block at the others. -/
theorem AtLiterals.step_literal (h : AtLiterals s (x :: lits)) :
    ∃ t, step s = .next t ∧ AtLiterals t lits ∧ t.out = s.out ++ [x] := by
  have hready := h.toLiteralsReady.pastCode (.lit (x.setWidth 16))
  obtain ⟨t, hexec, hread⟩ := hready.exec_lit
  obtain ⟨hstep, hback⟩ := step_of_reads_encode h.quiet h.run h.ctx_wellFormed h.lit_wellFormed h.stream hexec
  have hnext : nextCtx s.ctx s.prevValid (.lit (x.setWidth 16)) = (t.ctx, t.prevValid) := hread.nextCtx_eq _
  rw [hnext] at hback
  exact ⟨t, hstep, ⟨hready.of_literalRead hread, hback⟩, hread.out⟩

/-- A step at the End-of-Information code ends the run (R91). -/
theorem AtLiterals.step_eoi (h : AtLiterals s []) :
    ∃ t, step s = .next t ∧ t.phase = .done ∧ t.host = [] ∧ t.out = s.out ∧ t.warnLog = [] :=
  ⟨finish (s.pastCode .eoi),
    (step_of_reads_encode h.quiet h.run h.ctx_wellFormed h.eoi_wellFormed h.stream rfl).1, rfl, h.quiet, rfl, h.noWarn⟩

/-- A run of enough steps reads all the literals and ends with them. -/
theorem AtLiterals.run_done (h : AtLiterals s lits) (n : Nat) :
    ∃ t, core.run (lits.length + 1 + n) s = .next t ∧ t.phase = .done ∧ t.out = s.out ++ lits ∧ t.warnLog = [] := by
  induction lits generalizing s with
  | nil =>
    obtain ⟨t, hstep, hdone, hh, hout, hwarn⟩ := h.step_eoi
    refine ⟨t, ?_, hdone, by rw [hout, List.append_nil], hwarn⟩
    rw [List.length_nil, Nat.add_right_comm, run_succ_next hstep, run_quiescent _ hh (by rw [hdone]; nofun)]
  | cons x lits ih =>
    obtain ⟨u, hstep, hu, hout⟩ := h.step_literal
    obtain ⟨t, hrun, hdone, hout', hwarn⟩ := ih hu
    refine ⟨t, ?_, hdone, by rw [hout', hout, List.append_assoc, List.singleton_append], hwarn⟩
    rw [List.length_cons, Nat.add_right_comm, run_succ_next hstep, hrun]

/-- START over an assembled stream of literals brings the block to them (R57, R60). -/
theorem atLiterals_startLegal {k : BitVec 9} {mcs : Byte} {len : Nat} (hk : legalK k = true) (hb : BelowK k lits)
    (hroom : k.toNat + 2 + lits.length ≤ s.dictCap) (hcap : s.dictCap ≤ 65536) (hh : s.host = [])
    (hm : s.inMem = Memory.writeBytes [] 0 (assemble mcs k (literalCodes lits)))
    (hlen : len = (assemble mcs k (literalCodes lits)).length) : AtLiterals (startLegal k len s) lits := by
  have hsize : (startLegal k len s).size = k.toNat + 2 := dictInit_length k
  have hctx : (startLegal k len s).ctx = { k := k, size := k.toNat + 2 } := by
    rw [State.ctx, hsize, startLegal_k]
  have horig : (k + 2#9).toNat = k.toNat + 2 :=
    Nat.mod_eq_of_lt (lt_of_le_of_lt (Nat.add_le_add_right (legalK_bounds hk).2 2) (by decide))
  refine ⟨⟨hh, rfl, hk, horig, ?_, nofun, by rwa [hsize], hcap, hb, rfl⟩, ?_⟩
  · rw [startLegal_dict, startLegal_k, ← dictInit_length k, List.take_length]
  · rw [hctx]
    exact reads_of_packBits hm hlen rfl

end Sys2Proof.Machine
end

section
/-! PROOFS. The statements of the family 30_encoding. -/

namespace Sys2Proof

open Machine Safety

/-- Settles O60: START brings the block to the literals, each step reads one of them (induction over the literals), the
last one the End-of-Information code, and the bound of R66 leaves steps enough. -/
theorem literalStreamDecodesToItself : Obligations.LiteralStreamDecodesToItself := by
  intro s k mcs lits len hk hb hroom hcap hlen hm hh hp
  have hstart : step s = .next (startLegal k len { s with host := [] }) := by
    rw [step_start hh]
    exact startCommand_legal (s := { s with host := [] }) hp hk (by simp only; omega)
  have hlits := atLiterals_startLegal (s := { s with host := [] }) hk hb hroom hcap rfl hm hlen
  have hbound := length_le_stepBound_assemble mcs (literalCodes lits) hk
  have hcount : (literalCodes lits).length = lits.length + 1 := by simp [literalCodes]
  obtain ⟨n, hn⟩ : ∃ n, stepBound len = lits.length + 1 + n := Nat.exists_eq_add_of_le (hcount ▸ hlen ▸ hbound)
  obtain ⟨t, hrun, hdone, hout, hwarn⟩ := hlits.run_done n
  refine ⟨t, ?_, ?_⟩
  · rw [Nat.add_comm, run_succ_next hstart, hn, hrun]
  · rw [result_of_done hdone, hout, hwarn]
    rfl

/-- Settles O3: each row holds the sizes of one exponent, and each row begins behind the end of the one before it. -/
theorem widthOfEverySize : Obligations.WidthOfEverySize := by
  refine ⟨fun lo hi c w largest hrow n hlo hhi => ?_, fun n hlo hhi => ?_⟩
  · obtain ⟨hbelow, habove, hc, hw, hlargest⟩ := widthRows_bounds _ hrow
    have hclog : clog2 n = c := (clog2_eq_of_bounds (hbelow.trans_le hlo) (hhi.trans habove)).trans hc
    refine ⟨hclog, ?_, hlargest⟩
    rw [codeWidth, hclog]
    exact hw.symm
  · obtain ⟨⟨lo, hi, c, w, largest⟩, hrow, hbounds⟩ := exists_widthRow hlo hhi
    exact ⟨lo, hi, c, w, largest, hrow, hbounds⟩

/-- Settles O4: each row's sizes, up to the last before the growth, have one exponent, and it is below the clamp. -/
theorem firstWidthOfEveryK : Obligations.FirstWidthOfEveryK := by
  refine ⟨fun k => ?_, fun k w n hrow => ?_⟩
  · rw [legalK_iff]
    simp only [List.mem_map, Prod.exists, exists_and_right, exists_eq_right]
  obtain ⟨hbelow, hw, hsmall, hk, hn⟩ := firstWidthRows_bounds _ hrow
  simp only at hbelow hw hsmall hk hn
  have hwidth : ∀ m, k.toNat + 2 ≤ m → m < n → codeWidth m = w := fun m hlo hhi => by
    have hclog : clog2 m = w := (clog2_eq_of_bounds (hbelow.trans_le hlo) (by rw [hw]; omega)).trans hw
    rw [codeWidth_of_clog2_ne_thirteen (by omega), hclog]
  have hgrown : codeWidth n = w + 1 := by
    have hclog : clog2 n = w + 1 := clog2_eq_of_bounds (by omega) (by rw [pow_succ]; omega)
    rw [codeWidth_of_clog2_ne_thirteen (by omega), hclog]
  refine ⟨hwidth _ le_rfl (by omega), by omega, hwidth, hgrown, fun idx => ⟨fun h => ?_, fun h => ?_, fun h => ?_⟩⟩
  · exact classify_of_inClass le_rfl h rfl
  · exact classify_of_inClass le_rfl h rfl
  · exact classify_of_inClass le_rfl rfl (decide_eq_true h)

/-- Settles O12: K+1 fits the width, and the tests of R53 read no size before they find K and K+1. -/
theorem reservedCodesAtEveryWidth : Obligations.ReservedCodesAtEveryWidth := by
  intro k size hk hs _
  refine ⟨succ_k_lt_two_pow_codeWidth hk hs, fun idx => ⟨fun h => ?_, fun h => ?_⟩⟩
  · exact classify_of_inClass hs h rfl
  · exact classify_of_inClass hs h rfl

/-- Settles O13: (a) and (b) every value of the width is below SIZE; (c) SIZE lies strictly between two powers of two,
and the width's greatest value is beyond SIZE unless it is SIZE. -/
theorem absentClassesUnwritable : Obligations.AbsentClassesUnwritable := by
  intro ctx hs h4 hmax
  have hthirteen := clog2_eq_thirteen_iff ctx.size
  refine ⟨fun hab idx hidx => classify_ne_absent hs ?_, fun hlo hhi => ?_, fun hne hnot => ?_⟩
  · rcases hab with ha | hb
    · rwa [← ha] at hidx
    · rw [codeWidth_of_clog2_eq_thirteen (hthirteen.mpr hb)] at hidx
      omega
  · have hw := codeWidth_of_clog2_eq_thirteen (hthirteen.mpr ⟨hlo, hhi⟩)
    refine ⟨hw, fun idx c hidx hc => ?_⟩
    obtain ⟨hval, -⟩ := (classify_eq_iff hs).mp hc
    rw [hw, hval] at hidx
    exact Nat.le_of_lt_succ hidx
  · have hw := codeWidth_of_clog2_ne_thirteen (mt hthirteen.mp hnot)
    have hw2 := two_le_codeWidth (n := ctx.size) (by omega)
    have habove : ctx.size < 2 ^ codeWidth ctx.size :=
      lt_of_le_of_ne (hw ▸ le_two_pow_clog2 ctx.size) hne
    have hbelow : 2 ^ (codeWidth ctx.size - 1) < ctx.size := (lt_clog2_iff _ _).mp (by omega)
    exact ⟨hbelow, habove, decide_eq_true habove, exists_byd_wellFormed (codeWidth_le_sixteen hmax)⟩

/-- Settles O11: a value is of a class exactly when it is the class's value and meets its condition. -/
theorem classTestsInOrder : Obligations.ClassTestsInOrder := by
  intro ctx idx hs
  simp only [classify_eq_iff hs, codeIdx, Instr.inClass, and_true, decide_eq_true_eq, BitVec.toNat_inj]
  exact ⟨trivial, trivial, fun n => operand_iff (p := fun c => c.toNat < ctx.k.toNat),
    fun c => operand_iff (p := fun c => ctx.k.toNat + 2 ≤ c.toNat ∧ c.toNat < ctx.size), trivial,
    fun c => operand_iff (p := fun c => ctx.size < c.toNat)⟩

end Sys2Proof
end

section
/-! PROOFS. The dictionary's part of the invariant: START gives it, every code keeps it, and where it holds every code
that the decoder can read answers a next state (rules R76 to R88, R90 to R97). -/

namespace Sys2Proof.Safety

open Machine

variable {s t : State} {p q : Phrase} {x : Byte}

/-! ## The phrases of a dictionary that meets it (R76, R78, R86, R87) -/

theorem DictInv.size_ge (h : DictInv s) : s.k.toNat + 2 ≤ s.size := by
  have hlen := congrArg List.length h.base
  rw [dictInit_length, List.length_take] at hlen
  exact (le_of_eq hlen.symm).trans (min_le_right _ _)

theorem DictInv.widthOk (h : DictInv s) (hcap : s.dictCap ≤ 65536) : widthOk (codeWidth s.size) = true := by
  have hk := (legalK_bounds h.kLegal).1
  have hlo := h.size_ge
  exact widthOk_codeWidth (by omega) (h.sizeLe.trans hcap)

theorem belowK_of_mem_dictInit {k : BitVec 9} (hk : legalK k = true) (hp : p ∈ dictInit k) : BelowK k p := by
  have hk256 := (legalK_bounds hk).2
  simp only [dictInit, List.mem_append, List.mem_map, List.mem_range] at hp
  rcases hp with ⟨i, hi, rfl⟩ | hp
  · intro x hx
    rw [List.mem_singleton.mp hx, BitVec.toNat_ofNat, Nat.mod_eq_of_lt (by omega)]
    exact hi
  · obtain rfl : p = [] := by simpa using hp
    nofun

/-- A phrase of the dictionary is one of DICT_INIT's or a learned one; either way its indices are below K, and it is
shorter than what SIZE has room for above K. -/
theorem DictInv.phrase (h : DictInv s) (hp : p ∈ s.dict) : p.length + s.k.toNat < s.size ∧ BelowK s.k p := by
  have hsize := h.size_ge
  obtain ⟨c, hc⟩ := List.mem_iff_getElem?.mp hp
  have hlt : c < s.size := (List.getElem?_eq_some_iff.mp hc).1
  by_cases hbase : c < s.k.toNat + 2
  · have hmem : p ∈ dictInit s.k := by
      rw [← List.getElem?_take_of_lt hbase, h.base] at hc
      exact List.mem_of_getElem? hc
    have hlen := dictInit_length_le hmem
    exact ⟨by omega, belowK_of_mem_dictInit h.kLegal hmem⟩
  · obtain ⟨-, hlen, hbelow⟩ := h.learned c p (by omega) hc
    exact ⟨by omega, hbelow⟩

/-- A literal's code is the phrase of its one index (R76). -/
theorem DictInv.dict_of_literal (h : DictInv s) {c : Nat} (hc : c < s.k.toNat) :
    s.dict[c]? = some [BitVec.ofNat 8 c] := by
  have hinit := dictInit_getElem? hc
  rwa [← h.base, List.getElem?_take_of_lt (by omega)] at hinit

/-- A code in the learned range is a phrase with a first index (R78, R86). -/
theorem DictInv.dict_of_learned (h : DictInv s) {c : Nat} (hlo : s.k.toNat + 2 ≤ c) (hhi : c < s.size) :
    ∃ x xs, s.dict[c]? = some (x :: xs) := by
  have hget : s.dict[c]? = some (s.dict[c]'hhi) := List.getElem?_eq_getElem hhi
  obtain ⟨hlen, -⟩ := h.learned c _ hlo hget
  obtain ⟨x, xs, hxs⟩ := List.exists_cons_of_length_pos (Nat.zero_lt_of_lt hlen)
  exact ⟨x, xs, hxs ▸ hget⟩

/-! ## What gives it and what keeps it -/

/-- A dictionary that holds DICT_INIT's entries alone, with no previous phrase, meets it (R76, R77). -/
theorem dictInv_of_dictInit (hk : legalK s.k = true) (ho : s.orig.toNat = s.k.toNat + 2) (hd : s.dict = dictInit s.k)
    (hp : s.prev = none) (hcap : s.k.toNat + 2 ≤ s.dictCap) : DictInv s where
  kLegal := hk
  origEq := ho
  base := by rw [hd, ← dictInit_length, List.take_length]
  sizeLe := by rwa [size_eq_length, hd, dictInit_length]
  learned c p hc hget := by
    rw [hd, List.getElem?_eq_none (by rwa [dictInit_length])] at hget
    cases hget
  prevOk p hq := by rw [hp] at hq; cases hq
  prevOfLearned hlt := by
    rw [size_eq_length, hd, dictInit_length] at hlt
    exact absurd hlt (lt_irrefl _)

/-- ORIG after START is K+2: the sum fits the 9 bits (R23, R60). -/
theorem toNat_add_two_of_legalK {k : BitVec 9} (hk : legalK k = true) : (k + 2#9).toNat = k.toNat + 2 :=
  Nat.mod_eq_of_lt (lt_of_le_of_lt (Nat.add_le_add_right (legalK_bounds hk).2 2) (by decide))

theorem dictInv_startLegal {k : BitVec 9} (len : Nat) (hk : legalK k = true) (hcap : k.toNat + 2 ≤ s.dictCap) :
    DictInv (startLegal k len s) :=
  dictInv_of_dictInit hk (toNat_add_two_of_legalK hk) rfl rfl hcap

/-- Only K, ORIG, DICT, PREV and DICT_CAP are asked. -/
theorem DictInv.congr (h : DictInv s) (hk : t.k = s.k) (ho : t.orig = s.orig) (hd : t.dict = s.dict)
    (hp : t.prev = s.prev) (hc : t.dictCap = s.dictCap) : DictInv t := by
  have hs : t.size = s.size := by rw [size_eq_length, hd, size_eq_length]
  obtain ⟨kLegal, origEq, base, sizeLe, learned, prevOk, prevOfLearned⟩ := h
  rw [← hk] at kLegal origEq base learned prevOfLearned
  exact ⟨kLegal, ho ▸ origEq, hd ▸ base, by rwa [hs, hc], hd ▸ learned, by rwa [hd, hp], by rwa [hs, hp]⟩

/-- The Clear Code takes the dictionary back to DICT_INIT's entries (R77, R90). -/
theorem DictInv.clear (h : DictInv s) : DictInv (clearPrev (dictTruncate s)) :=
  dictInv_of_dictInit h.kLegal h.origEq (by simpa [h.origEq] using h.base) rfl (h.size_ge.trans h.sizeLe)

theorem DictInv.setPrev (h : DictInv s) (hp : p ∈ s.dict) (hne : p ≠ []) : DictInv (setPrev p s) :=
  { h with
    prevOk := fun _ hq => Option.some.inj hq ▸ ⟨hp, hne⟩
    prevOfLearned := nofun }

/-- An entry made of the previous phrase and one index more may be appended where there is room: the previous phrase is
itself in the dictionary, so the new one is in bounds at code SIZE (R83, R86, R87). -/
theorem DictInv.pushEntry (h : DictInv s) (hroom : s.size ≠ s.dictCap) (hq : s.prev = some q)
    (hx : x.toNat < s.k.toNat) : DictInv (pushEntry (q ++ [x]) s) := by
  obtain ⟨hmem, hne⟩ := h.prevOk q hq
  obtain ⟨hlen, hbelow⟩ := h.phrase hmem
  refine { h with
    base := (List.take_append_of_le_length h.size_ge).trans h.base
    sizeLe := ?_
    learned := fun c p hc hget => ?_
    prevOk := fun p hp => ⟨List.mem_append_left _ (h.prevOk p hp).1, (h.prevOk p hp).2⟩
    prevOfLearned := fun _ => hq ▸ nofun }
  · rw [pushEntry_size]
    exact lt_of_le_of_ne h.sizeLe hroom
  · rw [pushEntry_k] at hc ⊢
    rw [pushEntry_dict] at hget
    rcases Nat.lt_or_ge c s.size with hlt | hge
    · exact h.learned c p hc (List.getElem?_append_left hlt ▸ hget)
    · rw [List.getElem?_append_right hge, List.getElem?_singleton] at hget
      obtain ⟨-, hp⟩ := Option.ite_none_right_eq_some.mp hget
      obtain rfl := Option.some.inj hp
      have hpos := List.length_pos_iff.mpr hne
      rw [List.length_append, List.length_singleton]
      refine ⟨by omega, by omega, fun y hy => ?_⟩
      rcases List.mem_append.mp hy with hy | hy
      · exact hbelow y hy
      · rwa [List.mem_singleton.mp hy]

/-! ## Every code keeps it (R90 to R96) -/

theorem DictInv.of_performKnown (h : DictInv s) {c : Nat} (hn : (performKnown c s).outcome = .next t) : DictInv t := by
  have hemit (p : Phrase) : DictInv (emit p s) := h.congr rfl rfl rfl rfl rfl
  rcases performKnown_cases c s with ⟨f, e⟩ | ⟨x, xs, hget, e⟩
  · rw [e] at hn
    cases hn
  · have hmem := List.mem_of_getElem? hget
    rcases e with e | ⟨q, hq, ⟨hs, e⟩ | ⟨-, e⟩⟩ <;> rw [e] at hn <;> cases hn
    · exact (hemit _).setPrev hmem nofun
    · have hx := (h.phrase hmem).2 x List.mem_cons_self
      exact ((hemit _).pushEntry hs hq hx).setPrev (List.mem_append_left _ hmem) nofun
    · exact h.congr rfl rfl rfl rfl rfl

theorem DictInv.of_performImplied (h : DictInv s) (hn : (performImplied s).outcome = .next t) : DictInv t := by
  have hemit (p : Phrase) : DictInv (emit p s) := h.congr rfl rfl rfl rfl rfl
  rcases performImplied_cases s with e | ⟨-, e⟩ | ⟨q, hq, hne, ⟨hs, e⟩ | ⟨-, e⟩⟩ <;> rw [e] at hn <;> cases hn
  · exact h.congr rfl rfl rfl rfl rfl
  · obtain ⟨x, xs, rfl⟩ := List.exists_cons_of_ne_nil hne
    have hx := (h.phrase (h.prevOk _ hq).1).2 x List.mem_cons_self
    exact ((hemit _).pushEntry hs hq hx).setPrev (List.mem_append_right _ List.mem_cons_self) nofun
  · exact h.congr rfl rfl rfl rfl rfl

theorem DictInv.of_exec (h : DictInv s) {i : Instr} (hn : exec i s = .next t) : DictInv t := by
  cases i with
  | clr => cases hn; exact h.clear
  | eoi => cases hn; exact h.congr rfl rfl rfl rfl rfl
  | lit n =>
    simp only [exec, execLit] at hn
    split at hn
    · exact h.of_performKnown hn
    · cases hn
  | ref c =>
    simp only [exec, execRef] at hn
    split at hn
    · exact h.of_performKnown hn
    · cases hn
  | imp => exact h.of_performImplied hn
  | byd c =>
    simp only [exec, execByd] at hn
    split at hn
    · exact DictInv.of_performImplied (s := warn .dictCorrupt c s) (h.congr rfl rfl rfl rfl rfl) hn
    · cases hn

/-! ## Every code of its class answers a next state (R78, R97, R117) -/

theorem performKnown_answers {c : Nat} {xs : Phrase} (hget : s.dict[c]? = some (x :: xs)) :
    ∃ t, (performKnown c s).outcome = .next t := by
  rw [performKnown, withPhrase_of_some hget]
  rcases learn_cases x (emit (x :: xs) s) with e | ⟨q, -, e⟩
  · exact ⟨_, by rw [e, andThen_cont, outcome_cont]⟩
  · rcases dictAppend_cases (q ++ [x]) (emit (x :: xs) s) with ⟨-, d⟩ | ⟨-, d⟩
    · exact ⟨_, by rw [e, d, andThen_raised, outcome_raised]⟩
    · exact ⟨_, by rw [e, d, andThen_cont, outcome_cont]⟩

theorem performImplied_answers (hne : ∀ q, s.prev = some q → q ≠ []) : ∃ t, (performImplied s).outcome = .next t := by
  cases hq : s.prev with
  | none => exact ⟨_, by rw [performImplied, withImplied_of_none hq, outcome_raised]⟩
  | some q =>
    rw [performImplied, withImplied_of_some hq (hne q hq)]
    rcases dictAppend_cases (q ++ q.take 1) (emit (q ++ q.take 1) s) with ⟨-, d⟩ | ⟨-, d⟩
    · exact ⟨_, by rw [d, andThen_raised, outcome_raised]⟩
    · exact ⟨_, by rw [d, andThen_cont, outcome_cont]⟩

theorem DictInv.exec_answers (h : DictInv s) {i : Instr} (hi : i.inClass s.ctx = true) : ∃ t, exec i s = .next t := by
  cases i with
  | clr | eoi => exact ⟨_, rfl⟩
  | lit n =>
    have hn : n.toNat < s.k.toNat := of_decide_eq_true hi
    rw [exec, execLit, if_pos hn]
    exact performKnown_answers (h.dict_of_literal hn)
  | ref c =>
    have hc : s.k.toNat + 2 ≤ c.toNat ∧ c.toNat < s.size := of_decide_eq_true hi
    obtain ⟨x, xs, hget⟩ := h.dict_of_learned hc.1 hc.2
    rw [exec, execRef, if_pos hc]
    exact performKnown_answers hget
  | imp => exact performImplied_answers fun q hq => (h.prevOk q hq).2
  | byd c =>
    have hc : s.size < c.toNat := of_decide_eq_true hi
    rw [exec, execByd, if_pos hc]
    exact performImplied_answers fun q hq => (h.prevOk q hq).2

end Sys2Proof.Safety
end

section
/-! PROOFS. A run with nothing more from the host ends: each step uses two bits of the buffer or more, or ends the run
(rules R48, R65, R66, R75). -/

namespace Sys2Proof.Machine

open Safety

/-- A code that raises no fault and is no EOI leaves STATE (R65, R104). -/
theorem exec_phase {i : Instr} {s t : State} (h : exec i s = .next t) :
    (i = .eoi ∧ t.phase = .done) ∨ (i ≠ .eoi ∧ (t.phase = s.phase ∨ t.phase = .fault)) := by
  rcases exec_next h with ⟨rfl, rfl⟩ | ⟨rfl, rfl⟩ | ⟨-, hi, he⟩
  · exact .inr ⟨nofun, .inl rfl⟩
  · exact .inl ⟨rfl, rfl⟩
  · refine .inr ⟨hi, ?_⟩
    rcases he.status with ⟨hp, -⟩ | ⟨hp, -⟩
    · exact .inl (hp.trans (recordBeyond_phase i s))
    · exact .inr hp

/-- A decode in progress, with nothing more from the host. -/
structure Running (s : State) : Prop extends DictInv s where
  quiet : s.host = []
  run : s.phase = .run
  capMax : s.dictCap ≤ 65536

/-- A step of a run ends it, or uses at least two bits, all of them inside the buffer, and the run goes on. -/
theorem Running.step {s : State} (h : Running s) :
    ∃ t, step s = .next t ∧ t.host = [] ∧
      (Over t ∨ Running t ∧ t.len = s.len ∧ s.bitPos + 2 ≤ t.bitPos ∧ t.bitPos ≤ 8 * s.len) := by
  have hok := h.widthOk h.capMax
  have hw := ((widthOk_iff _).mp hok).1
  rw [step_nil h.quiet, stepBlock_run h.run]
  rcases Nat.lt_or_ge (s.len - s.bp) (codeNeed s.off (codeWidth s.size)) with hlt | hge
  · exact ⟨_, stepCode_of_truncated (decodeWindow_of_lt hok hlt), h.quiet, .inl (.inr rfl)⟩
  · rw [stepCode_of_code (decodeWindow_of_le (ctx := s.ctx) hok hge)]
    set idx := codeValue s.win s.off (codeWidth s.ctx.size)
    have hd : DictInv (advance idx (codeWidth s.ctx.size) s) := h.toDictInv.congr rfl rfl rfl rfl rfl
    obtain ⟨t, ht⟩ := hd.exec_answers (codeIdx_and_inClass_classify s.ctx idx).2
    have hk := exec_keeps ht
    refine ⟨t, ht, hk.host.trans h.quiet, ?_⟩
    rcases exec_phase ht with ⟨-, hp⟩ | ⟨-, hp | hp⟩
    · exact .inl (.inl hp)
    · have hpos : t.bitPos = s.bitPos + codeWidth s.size := (exec_bitPos ht).trans (bitPos_advance _ _ _)
      refine .inr ⟨⟨hd.of_exec ht, hk.host.trans h.quiet, hp.trans h.run, hk.dictCap ▸ h.capMax⟩, hk.len, by omega, ?_⟩
      rw [codeNeed] at hge
      rw [hpos, State.bitPos]
      omega
    · exact .inl (.inr hp)

/-- A run ends within one step more than the codes of two bits that the rest of the buffer has room for. -/
theorem Running.run_over {s : State} (h : Running s) {n : Nat} (hn : 8 * s.len < s.bitPos + 2 * (n + 1)) :
    ∃ t, core.run (n + 1) s = .next t ∧ Over t := by
  induction n generalizing s with
  | zero =>
    obtain ⟨t, ht, -, hover | ⟨-, -, hlo, hhi⟩⟩ := h.step
    · exact ⟨t, run_succ_next ht, hover⟩
    · omega
  | succ n ih =>
    obtain ⟨u, hu, hq, hover | ⟨hrun, hlen, hlo, -⟩⟩ := h.step
    · have hp : u.phase ≠ .run := by rcases hover with hp | hp <;> simp [hp]
      exact ⟨u, (run_succ_next hu).trans (run_quiescent _ hq hp), hover⟩
    · obtain ⟨t, ht, hover⟩ := ih hrun (by rw [hlen]; omega)
      exact ⟨t, (run_succ_next hu).trans ht, hover⟩

end Sys2Proof.Machine
end

section
/-! PROOFS. A word of the opcode table where the next STEP reads its code (rules R18, R35, R73; assumption log 12). -/

namespace Sys2Proof

/-- At the size chosen for it, a word's value fits the width: 3 bits below 8, else one bit more than its logarithm, and
14 where that would be the width that the clamp takes away (R71). -/
theorem lt_two_pow_codeWidth_tableSize (v : Nat) : v < 2 ^ codeWidth (tableSize v) := by
  unfold tableSize
  split
  · exact ‹v < 8›
  · have hlog : v < 2 ^ (Nat.log2 v + 1) := Nat.lt_log2_self
    split
    · rename_i h12
      rw [h12] at hlog
      exact hlog.trans (by decide : 2 ^ 13 < 2 ^ codeWidth 8193)
    · rename_i h12
      have hpos : 1 ≤ 2 ^ Nat.log2 v := Nat.one_le_two_pow
      have hclog : clog2 (2 ^ Nat.log2 v + 1) = Nat.log2 v + 1 :=
        clog2_eq_of_bounds (Nat.lt_succ_self _) (by rw [pow_succ]; omega)
      rwa [codeWidth_of_clog2_ne_thirteen (by omega), hclog]

theorem four_le_tableSize (v : Nat) : 4 ≤ tableSize v := by
  unfold tableSize
  split
  · decide
  · split
    · decide
    · have hlog : 3 ≤ Nat.log2 v := (Nat.le_log2 (by omega)).mpr (by omega)
      have hpow : 2 ^ 3 ≤ 2 ^ Nat.log2 v := Nat.pow_le_pow_right (by omega) hlog
      omega

/-- A word of 16 bits is the window over its two bytes (R35, R36). -/
theorem windowOf_tableBytes_toNat {nbits w : Nat} (hv : w % 2 ^ nbits < 65536) :
    (windowOf ((tableBytes nbits w).getD 0 0#8) ((tableBytes nbits w).getD 1 0#8)
      ((tableBytes nbits w).getD 2 0#8)).toNat = w % 2 ^ nbits := by
  rw [Machine.windowOf_toNat]
  simp only [tableBytes, List.getD_cons_zero, List.getD_cons_succ, List.getD_nil, BitVec.toNat_ofNat]
  omega

/-- What the decoder reads from a word of the table has the word as its value. -/
theorem toNat_of_decodeBytes_tableBytes {nbits w width : Nat} {i : Instr} {idx : Code} (hv : w % 2 ^ nbits < 65536)
    (h : decodeBytes (tableCtx (w % 2 ^ nbits)) 0#3 (tableBytes nbits w) = .code i idx width) :
    idx.toNat = w % 2 ^ nbits ∧ width = codeWidth (tableSize (w % 2 ^ nbits)) := by
  obtain ⟨hwidth, hok, -, hval, -⟩ := Machine.decodeWindow_code h
  have hfits : w % 2 ^ nbits < 2 ^ width := hwidth ▸ lt_two_pow_codeWidth_tableSize _
  refine ⟨?_, hwidth⟩
  rw [hval, codeValue_eq_ofNat ((Machine.widthOk_iff _).mp hok).2 hfits, BitVec.toNat_ofNat, Nat.mod_eq_of_lt hv]
  intro b _
  rw [← BitVec.testBit_toNat, windowOf_tableBytes_toNat hv]
  simp

theorem decodeTableWord_some {nbits w : Nat} {i : Instr} (h : decodeTableWord nbits w = some i) :
    w % 2 ^ nbits < 65536 ∧
      ∃ idx width, decodeBytes (tableCtx (w % 2 ^ nbits)) 0#3 (tableBytes nbits w) = .code i idx width := by
  unfold decodeTableWord at h
  split at h
  · refine ⟨‹_›, ?_⟩
    split at h
    · rename_i j idx width hd
      cases h
      exact ⟨idx, width, hd⟩
    · cases h
    · cases h
  · cases h

end Sys2Proof

namespace Sys2Proof.Machine

theorem ctx_withFetchWord (s : State) (nbits w : Nat) : (s.withFetchWord nbits w).ctx = tableCtx (w % 2 ^ nbits) := by
  have hsize : (tableDict (tableSize (w % 2 ^ nbits))).length = tableSize (w % 2 ^ nbits) := by
    have h4 := four_le_tableSize (w % 2 ^ nbits)
    rw [tableDict, List.length_append, dictInit_length, List.length_replicate]
    simp only [BitVec.toNat_ofNat]
    omega
  exact congrArg (CodeCtx.mk 2#9) hsize

/-- With the word placed, the window is the word's two bytes and a byte beyond LEN (R38). -/
theorem win_withFetchWord {s : State} (nbits w : Nat) (hwf : Memory.wf s.inMem = true) :
    (s.withFetchWord nbits w).win =
      windowOf ((tableBytes nbits w).getD 0 0#8) ((tableBytes nbits w).getD 1 0#8)
        ((tableBytes nbits w).getD 2 0#8) := by
  have hread (i : Nat) (hi : i < (tableBytes nbits w).length) :
      (s.withFetchWord nbits w).memByte (1 + i) = (tableBytes nbits w)[i] := by
    have hlen : (tableBytes nbits w).length = 2 := rfl
    rw [memByte_of_lt (by change 1 + i < 3; omega)]
    exact Memory.read_writeBytes_same 1 (tableBytes nbits w) i hi hwf
  have hbeyond : (s.withFetchWord nbits w).memByte 3 = 0#8 := memByte_of_le le_rfl
  exact congr (congrArg₂ windowOf (hread 0 Nat.zero_lt_two) (hread 1 Nat.one_lt_two)) hbeyond

/-- The block reads the placed word as the decoder reads its bytes alone (R73; assumption log 12). -/
theorem decoded_withFetchWord {s : State} (nbits w : Nat) (hwf : Memory.wf s.inMem = true) :
    (s.withFetchWord nbits w).decoded = decodeBytes (tableCtx (w % 2 ^ nbits)) 0#3 (tableBytes nbits w) := by
  rw [State.decoded, ctx_withFetchWord, win_withFetchWord nbits w hwf]
  rfl

end Sys2Proof.Machine
end

section
/-! PROOFS. When a step comes to DONE (rules R59 to R62, R65, R91). -/

namespace Sys2Proof.Machine

open Safety

/-- In the block's turn in RUN, the step leaves DONE exactly when the code is EOI (R91). -/
theorem done_iff_of_blockTurn {s t : State} (hr : s.phase = .run) (hb : BlockTurn s) (h : step s = .next t) :
    t.phase = .done ↔ ∃ idx w, s.decoded = .code .eoi idx w := by
  rcases step_next_blockTurn hr hb h with ⟨i, idx, w, hd, he⟩ | ⟨hd, rfl⟩
  · rcases exec_phase he with ⟨rfl, hp⟩ | ⟨hi, hp⟩
    · exact iff_of_true hp ⟨idx, w, hd⟩
    · refine iff_of_false (by rcases hp with hp | hp <;> simp [hp, hr]) fun ⟨_, _, hd'⟩ => ?_
      rw [hd] at hd'
      cases hd'
      exact hi rfl
  · refine iff_of_false nofun fun ⟨_, _, hd'⟩ => ?_
    rw [hd] at hd'
    cases hd'

/-- No other turn, a command neither, comes to DONE (R26, R59 to R62). -/
theorem phase_ne_done_of_not_blockTurn {s t : State} (hn : ¬ (s.phase = .run ∧ BlockTurn s)) (h : step s = .next t)
    (hd : s.phase ≠ .done) : t.phase ≠ .done := by
  rcases step_next h with ⟨u, hu, hr⟩ | ⟨rest, -, rfl⟩ | ⟨a, b, rest, -, -, rfl⟩ | ⟨rest, -, rfl⟩ |
    ⟨k, len, rest, -, ⟨-, rfl⟩ | ⟨-, -, -, rfl⟩ | ⟨-, -, rfl⟩⟩
  · rcases hu with ⟨hh, rfl⟩ | ⟨rest, hh, rfl⟩ <;> rcases hr with ⟨hr, -⟩ | ⟨-, rfl⟩
    · exact absurd ⟨hr, .inl hh⟩ hn
    · exact hd
    · exact absurd ⟨hr, .inr ⟨rest, hh⟩⟩ hn
    · exact hd
  · exact hd
  · exact hd
  · nofun
  · exact hd
  · nofun
  · nofun

end Sys2Proof.Machine
end

section
/-! PROOFS. The first STEP of a run with no byte for a code (rules R60, R75, R104). -/

namespace Sys2Proof.Machine

open Safety

theorem faulted_raiseTruncated (s : State) : Faulted .truncatedLzw s (raiseTruncated s) :=
  ⟨rfl, rfl, rfl, rfl, rfl⟩

/-- With LEN at most 1 the first code has no byte, and START's size has a width. -/
theorem stepBlock_startLegal_of_len_le_one {s : State} {k : BitVec 9} {len : Nat} (hk : legalK k = true)
    (hlen : len ≤ 1) : stepBlock (startLegal k len s) = .next (raiseTruncated (startLegal k len s)) := by
  obtain ⟨hlo, hhi⟩ := legalK_bounds hk
  have hsize : (startLegal k len s).size = k.toNat + 2 := dictInit_length k
  have hok : widthOk (codeWidth (startLegal k len s).size) = true := widthOk_codeWidth (by omega) (by omega)
  have hw := ((widthOk_iff _).mp hok).1
  rw [stepBlock_run rfl]
  refine stepCode_of_truncated (decodeWindow_of_lt hok ?_)
  rw [ctx_size, startLegal_len, startLegal_bp, codeNeed]
  omega

end Sys2Proof.Machine
end

section
/-! PROOFS. The statements of the family 40_lifecycle. -/

namespace Sys2Proof

open Machine Safety

/-- Settles O58: START begins a run at bit 8, every code of the run uses at least two of the bits 8 to 8*LEN - 1, and a
step that finds no code left, or a code that stops the run, leaves DONE or FAULT. -/
theorem everyRunEnds : Obligations.EveryRunEnds := by
  intro s k len hh hp hk hcap hmax
  have hstart : step s = .next (startLegal k len { s with host := [] }) := by
    rw [step_start hh]
    exact startCommand_legal (s := { s with host := [] }) hp hk hcap
  have hrun : Running (startLegal k len { s with host := [] }) :=
    ⟨dictInv_startLegal (s := { s with host := [] }) len hk hcap, rfl, rfl, hmax⟩
  have hpos : (startLegal k len { s with host := [] }).bitPos = 8 := rfl
  obtain ⟨t, ht, hover⟩ := hrun.run_over (n := 4 * (len - 1)) (by rw [hpos, startLegal_len]; omega)
  exact ⟨t, by rw [Nat.add_comm, run_succ_next hstart]; exact ht, hover⟩

/-- Settles O19: the context, the window and the bytes that exist at the placed word are those that the table's decoder
is given, and the value read is the word, which its size's width holds. -/
theorem placedWordRuns : Obligations.PlacedWordRuns := by
  intro s nbits w i hwf h
  obtain ⟨hv, idx, width, hd⟩ := decodeTableWord_some h
  obtain ⟨hidx, hwidth⟩ := toNat_of_decodeBytes_tableBytes hv hd
  refine ⟨idx, width, hidx, hwidth, ?_⟩
  rw [step_nil rfl, stepBlock_run rfl, stepCode_of_code ((decoded_withFetchWord nbits w hwf).trans hd)]

/-- Settles O51: in a block's turn in RUN the code decides, and EOI alone leaves DONE; no other turn leaves DONE. -/
theorem onlyEndOfInformationReachesDone : Obligations.OnlyEndOfInformationReachesDone := by
  intro s t h hd
  by_cases hrb : s.phase = .run ∧ BlockTurn s
  · obtain ⟨hr, hb⟩ := hrb
    exact (done_iff_of_blockTurn hr hb h).trans ⟨fun he => ⟨hr, hb, he⟩, fun ⟨_, _, he⟩ => he⟩
  · exact iff_of_false (phase_ne_done_of_not_blockTurn hrb h hd) fun ⟨hr, hb, _⟩ => hrb ⟨hr, hb⟩

/-- Settles O17: EXTRACT cuts the code that was decoded, and neither reads the host's turns. -/
theorem stepRunsDecodedCode : Obligations.StepRunsDecodedCode := by
  refine fun s i idx w hr hd => ⟨fun hh => ?_, fun rest hh => ?_⟩
  · rw [step_nil hh, stepBlock_run hr, stepCode_of_code hd]
  · rw [step_pass hh, stepBlock_run (s := { s with host := rest }) hr,
      stepCode_of_code (s := { s with host := rest }) hd]

/-- Settles O20: the state RESET answers, element by element. -/
theorem resetCommandClears : Obligations.ResetCommandClears := fun _ _ hh =>
  ⟨_, step_reset hh, rfl, rfl, rfl, rfl, rfl, rfl, rfl, rfl, rfl⟩

/-- Settles O22: the state START answers, element by element; with LEN at most 1 no byte holds a bit of the first code. -/
theorem startBeginsRun : Obligations.StartBeginsRun := by
  intro s k len rest hh hp hk hcap
  refine ⟨startLegal k len { s with host := rest }, ?_, rfl, rfl, toNat_add_two_of_legalK hk, fun hlen => ?_, rfl,
    dictInit_length k, rfl, rfl, rfl, rfl, rfl, rfl, rfl, rfl, rfl, rfl, rfl, rfl, rfl, fun hlen => ?_⟩
  · rw [step_start hh]
    exact startCommand_legal (s := { s with host := rest }) hp hk hcap
  · rw [startLegal_mcs, latchedMcs, if_pos hlen]
    exact memByte_of_lt (s := { s with host := rest, len := len }) hlen
  · exact ⟨_, stepBlock_startLegal_of_len_le_one hk hlen, faulted_raiseTruncated _⟩

/-- Settles O23: the state that START with an illegal K answers is BAD_CONFIG's, which records K. -/
theorem startRefusesIllegalK : Obligations.StartRefusesIllegalK := by
  intro s k len rest hh hp hk
  refine ⟨startIllegal k len { s with host := rest }, ?_, rfl, rfl, rfl, rfl⟩
  rw [step_start hh]
  exact startCommand_illegal (s := { s with host := rest }) hp hk

/-- Settles O25: in RUN the command leaves the state it is given, in which only the host's turn is used up. -/
theorem startIgnoredInRun : Obligations.StartIgnoredInRun := by
  intro s k len rest hh hr
  rw [step_start hh]
  exact startCommand_run (s := { s with host := rest }) hr

end Sys2Proof
end

section
/-! PROOFS. The bytes a code touches and consumes, and when EXTRACT answers a code (rules R70 to R75). -/

namespace Sys2Proof

/-- A power of two has its own exponent (R70). -/
theorem clog2_two_pow (c : Nat) : clog2 (2 ^ c) = c :=
  le_antisymm ((clog2_le_iff _ c).mpr le_rfl) ((Nat.pow_le_pow_iff_right one_lt_two).mp (le_two_pow_clog2 _))

/-- The clamp leaves no code of 13 bits (R71). -/
theorem codeWidth_ne_thirteen (n : Nat) : codeWidth n ≠ 13 := by
  by_cases h : clog2 n = 13
  · rw [codeWidth_of_clog2_eq_thirteen h]
    decide
  · rwa [codeWidth_of_clog2_ne_thirteen h]

theorem codeNextOff_toNat (off : BitVec 3) (w : Nat) : (codeNextOff off w).toNat = (off.toNat + w) % 8 := by
  rw [codeNextOff, BitVec.toNat_ofNat]
  exact Nat.mod_mod _ _

/-- Some byte holds a bit of the code. -/
theorem codeNeed_pos (off : BitVec 3) {w : Nat} (hw : 1 ≤ w) : 1 ≤ codeNeed off w := by
  rw [codeNeed]
  omega

/-- Bytes are missing exactly when bits are: the last byte of a code holds one of its bits (R75). -/
theorem lt_add_codeNeed_iff (len bp : Nat) (off : BitVec 3) (w : Nat) :
    len < bp + codeNeed off w ↔ 8 * len < 8 * bp + off.toNat + w := by
  rw [codeNeed]
  omega

end Sys2Proof

namespace Sys2Proof.Machine

variable {s : State}

/-- Where the bytes that hold the code exist, EXTRACT answers the window's value and moves past it (R73). -/
theorem extract_of_le (hok : widthOk (codeWidth s.size) = true)
    (h : s.bp + codeNeed s.off (codeWidth s.size) ≤ s.len) :
    extract s = .code (classify s.ctx (codeValue s.win s.off (codeWidth s.size)))
      (advance (codeValue s.win s.off (codeWidth s.size)) (codeWidth s.size) s) :=
  extract_of_code (decodeWindow_of_le hok (Nat.le_sub_of_add_le' h))

/-- Where one of them does not exist, EXTRACT raises TRUNCATED_LZW (R75). -/
theorem extract_of_lt (hok : widthOk (codeWidth s.size) = true)
    (h : s.len < s.bp + codeNeed s.off (codeWidth s.size)) : extract s = .truncated (raiseTruncated s) := by
  have hw := ((widthOk_iff _).mp hok).1
  have hneed := codeNeed_pos s.off (w := codeWidth s.size) (by omega)
  exact extract_of_truncated (decodeWindow_of_lt hok (by rw [ctx_size]; omega))

theorem exists_extract_truncated_iff (hok : widthOk (codeWidth s.size) = true) :
    (∃ t, extract s = .truncated t) ↔ s.len < s.bp + codeNeed s.off (codeWidth s.size) := by
  refine ⟨fun ⟨t, ht⟩ => ?_, fun h => ⟨_, extract_of_lt hok h⟩⟩
  by_contra hle
  rw [extract_of_le hok (not_lt.mp hle)] at ht
  cases ht

end Sys2Proof.Machine
end

section
/-! PROOFS. The statements of the family 41_code_extractor. -/

namespace Sys2Proof

open Machine Safety

/-- Settles O1: the floor of the logarithm of n - 1, plus one, is the least exponent; the examples are evaluated. -/
theorem clogIsLeastExponent : Obligations.ClogIsLeastExponent :=
  ⟨fun n c _ => clog2_le_iff n c, clog2_two_pow, by decide⟩

/-- Settles O2: by the cases of the clamp, and the bounds of the exponent 13. -/
theorem widthClampsThirteen : Obligations.WidthClampsThirteen := fun n _ =>
  ⟨codeWidth_of_clog2_eq_thirteen, codeWidth_of_clog2_ne_thirteen, codeWidth_ne_thirteen n, clog2_eq_thirteen_iff n⟩

/-- Settles O6: each row is the quotient and the remainder of its sums by 8. -/
theorem bytesTouchedAndConsumed : Obligations.BytesTouchedAndConsumed := by
  intro off w hlo hhi
  have hoff := off.isLt
  rw [codeNextOff_toNat, codeNeed, codeAdv]
  refine ⟨?row0, ?row8, ?row1, ?row16, ?row2, ?least, ?greatest⟩ <;> omega

/-- Settles O5: with a width from 2 to 16 and an offset of at most 7 the sum OFF + w is at most 23; the last size with
such a width is 65536. -/
theorem codeLiesInWindow : Obligations.CodeLiesInWindow := by
  refine ⟨fun n off hlo hhi => ?_, by decide, by decide⟩
  have hw2 : 2 ≤ codeWidth n := two_le_codeWidth (by omega)
  have hw16 := codeWidth_le_sixteen hhi
  have hoff := off.isLt
  refine ⟨hw2, hw16, by omega, codeNeed_pos off (by omega), ?_, ?_⟩
  · rw [codeNeed]
    omega
  · rw [codeAdv]
    omega

/-- Settles O9: the decoder's value is the window's, its bits are those of IN, and the state is the advanced one; where a
byte is missing the fault is raised instead. -/
theorem extractReadsOneCode : Obligations.ExtractReadsOneCode := by
  intro s hlo hhi
  have hok : widthOk (codeWidth s.size) = true := (widthOk_iff _).mpr ⟨hlo, hhi⟩
  refine ⟨fun hle => ?_, fun hlt => ⟨_, extract_of_lt hok hlt, faulted_raiseTruncated s⟩⟩
  have hcode := extract_of_le hok hle
  obtain ⟨hbits, -⟩ := codeBitsAreLsbFirst s _ _ hcode
  exact ⟨codeValue s.win s.off (codeWidth s.size), rfl, hbits, codeValue_lt s.win s.off hhi, hcode⟩

/-- Settles O10: EXTRACT is truncated exactly when a byte of the code is missing, which is when a bit of it is, and then
the state is TRUNCATED_LZW's. -/
theorem exhaustionIsExact : Obligations.ExhaustionIsExact := by
  intro s hlo hhi
  have hiff := exists_extract_truncated_iff ((widthOk_iff (codeWidth s.size)).mpr ⟨hlo, hhi⟩)
  refine ⟨hiff, hiff.trans (lt_add_codeNeed_iff s.len s.bp s.off _), fun t ht => ?_⟩
  obtain ⟨-, rfl⟩ := extract_truncated ht
  exact faulted_raiseTruncated s

end Sys2Proof
end

section
/-! PROOFS. The dictionary's own operations: the reserved entries, the append, the duplicate check, how each code
leaves SIZE, and which statements it performs (rules R76, R77, R80, R82 to R85, R92 to R95, R101). -/

namespace Sys2Proof.Machine

open Safety

/-- The two entries behind the palette's are empty (R76). -/
theorem dictInit_getElem?_reserved {k : BitVec 9} {i : Nat} (hlo : k.toNat ≤ i) (hhi : i < k.toNat + 2) :
    (dictInit k)[i]? = some [] := by
  rw [dictInit, List.getElem?_append_right (by simpa using hlo)]
  obtain rfl | rfl : i = k.toNat ∨ i = k.toNat + 1 := by omega
  · simp
  · simp

/-- A fault raised at an extracted code, with the record R101 gives it, is what R104 says. -/
theorem faultedAtCode_raise (e : ErrCode) (s : State) : FaultedAtCode e s (raise e (recordCode s) s) :=
  ⟨⟨rfl, rfl, rfl, rfl, rfl⟩, rfl⟩

/-- An emitting code leaves SIZE or appends one entry. -/
theorem Emitted.size {u t : State} (h : Emitted u t) : t.size = u.size ∨ t.size = u.size + 1 := by
  cases h with
  | noPrefix | kept | full => exact .inl rfl
  | appended p q => exact .inr (pushEntry_size q (emit p u))

@[simp] theorem recordBeyond_k (i : Instr) (s : State) : (recordBeyond i s).k = s.k := by
  cases i <;> rfl

/-- A code that answers a next state is a reserved one, or has performed the statements of the known codes, or, its
warning recorded, those of the absent codes. -/
theorem exec_performs {i : Instr} {s t : State} (h : exec i s = .next t) :
    (i = .clr ∨ i = .eoi) ∨ (∃ c, (performKnown c s).outcome = .next t) ∨
      (performImplied (recordBeyond i s)).outcome = .next t := by
  cases i with
  | clr => exact .inl (.inl rfl)
  | eoi => exact .inl (.inr rfl)
  | lit n =>
    simp only [exec, execLit] at h
    split at h
    · exact .inr (.inl ⟨_, h⟩)
    · cases h
  | ref c =>
    simp only [exec, execRef] at h
    split at h
    · exact .inr (.inl ⟨_, h⟩)
    · cases h
  | imp => exact .inr (.inr h)
  | byd c =>
    simp only [exec, execByd] at h
    split at h
    · exact .inr (.inr h)
    · cases h

end Sys2Proof.Machine

namespace Sys2Proof.Safety

open Machine

variable {s t : State} {p : Phrase}

/-- In a run truncating to ORIG entries gives DICT_INIT's again (R77). -/
theorem DictInv.dictTruncate_eq (h : DictInv s) : dictTruncate s = { s with dict := dictInit s.k } := by
  rw [dictTruncate, h.origEq, h.base]

theorem DictInv.dictTruncate_size (h : DictInv s) : (dictTruncate s).size = s.k.toNat + 2 := by
  rw [h.dictTruncate_eq]
  exact dictInit_length s.k

/-- No base entry is identical to a phrase of two indices or more (R80, R82). -/
theorem DictInv.baseHas_of_two_le (h : DictInv s) (hp : 2 ≤ p.length) : s.baseHas p = false := by
  rw [State.baseHas, h.origEq, h.base]
  refine decide_eq_false fun hmem => ?_
  have hle := dictInit_length_le hmem
  omega

/-- A code leaves SIZE, appends one entry, or is CLR, which sets SIZE to K+2 (R85). -/
theorem DictInv.exec_size (h : DictInv s) {i : Instr} (hn : exec i s = .next t) :
    t.size = s.size ∨ t.size = s.size + 1 ∨ (t.size = s.k.toNat + 2 ∧ i = .clr) := by
  rcases exec_next hn with ⟨rfl, rfl⟩ | ⟨-, rfl⟩ | ⟨-, -, he⟩
  · exact .inr (.inr ⟨h.dictTruncate_size, rfl⟩)
  · exact .inl rfl
  · have hsize := he.size
    rw [recordBeyond_size] at hsize
    exact hsize.imp_right .inl

end Sys2Proof.Safety
end

section
/-! PROOFS. The invariant of the block, kept by each thing a step can do: a code, a truncated code, a command, a turn of
the host (rules R17, R27, R66, R75, R86, R87, R98). -/

namespace Sys2Proof.Safety

open Machine

variable {s t : State}

/-! ## What a code emits (R86, R87, R98) -/

/-- What is appended to OUT are indices below K, at most SIZE - K of them. -/
def Emits (s t : State) : Prop :=
  ∃ p, t.out = s.out ++ p ∧ p.length + s.k.toNat ≤ s.size ∧ BelowK s.k p

theorem BelowK.append {k : BitVec 9} {p q : Phrase} (hp : BelowK k p) (hq : BelowK k q) : BelowK k (p ++ q) :=
  fun x hx => (List.mem_append.mp hx).elim (hp x) (hq x)

theorem DictInv.emits_nothing (h : DictInv s) (ho : t.out = s.out) : Emits s t := by
  have hsize := h.size_ge
  refine ⟨[], by rw [ho, List.append_nil], ?_, nofun⟩
  rw [List.length_nil]
  omega

theorem DictInv.emits_of_mem (h : DictInv s) {p : Phrase} (hp : p ∈ s.dict) (ho : t.out = s.out ++ p) :
    Emits s t := by
  obtain ⟨hlen, hbelow⟩ := h.phrase hp
  exact ⟨p, ho, hlen.le, hbelow⟩

/-- An absent code implies the previous phrase, which is one of the dictionary, and its first index again. -/
theorem DictInv.emits_of_implied (h : DictInv s) {q : Phrase} (hq : s.prev = some q)
    (ho : t.out = s.out ++ (q ++ q.take 1)) : Emits s t := by
  obtain ⟨hlen, hbelow⟩ := h.phrase (h.prevOk q hq).1
  refine ⟨q ++ q.take 1, ho, ?_, hbelow.append fun x hx => hbelow x (List.mem_of_mem_take hx)⟩
  have htake := List.length_take_le 1 q
  rw [List.length_append]
  omega

theorem DictInv.performKnown_emits (h : DictInv s) {c : Nat} (hn : (performKnown c s).outcome = .next t) :
    Emits s t := by
  rcases performKnown_cases c s with ⟨f, e⟩ | ⟨x, xs, hget, e⟩
  · rw [e] at hn
    cases hn
  · refine h.emits_of_mem (List.mem_of_getElem? hget) ?_
    rcases e with e | ⟨q, -, ⟨-, e⟩ | ⟨-, e⟩⟩ <;> rw [e] at hn <;> cases hn <;> rfl

theorem DictInv.performImplied_emits (h : DictInv s) (hn : (performImplied s).outcome = .next t) : Emits s t := by
  rcases performImplied_cases s with e | ⟨-, e⟩ | ⟨q, hq, -, ⟨-, e⟩ | ⟨-, e⟩⟩ <;> rw [e] at hn <;> cases hn
  · exact h.emits_nothing rfl
  · exact h.emits_of_implied hq rfl
  · exact h.emits_of_implied hq rfl

theorem DictInv.recordBeyond (h : DictInv s) (i : Instr) : DictInv (recordBeyond i s) := by
  cases i with
  | byd c => exact h.congr rfl rfl rfl rfl rfl
  | clr | eoi | lit | ref | imp => exact h

theorem DictInv.exec_emits (h : DictInv s) {i : Instr} (hn : exec i s = .next t) : Emits s t := by
  rcases exec_performs hn with (rfl | rfl) | ⟨c, hknown⟩ | himplied
  · cases hn
    exact h.emits_nothing rfl
  · cases hn
    exact h.emits_nothing rfl
  · exact h.performKnown_emits hknown
  · simpa [Emits] using (h.recordBeyond i).performImplied_emits himplied

/-! ## ERR after a code (R27, R101) -/

/-- A code performed in RUN with ERR NONE leaves an error exactly where it leaves FAULT. -/
theorem exec_errPhase {i : Instr} (hn : exec i s = .next t) (hr : s.phase = .run) (he : s.err = .none) :
    t.err = .none ↔ t.phase ≠ .fault := by
  rcases exec_next hn with ⟨-, rfl⟩ | ⟨-, rfl⟩ | ⟨-, -, hend⟩
  · exact iff_of_true he (by simp [hr])
  · exact iff_of_true he nofun
  · rcases hend.status with ⟨hp, herr, -⟩ | ⟨hp, herr, -⟩
    · rw [recordBeyond_phase] at hp
      rw [recordBeyond_err] at herr
      exact iff_of_true (herr.trans he) (by simp [hp, hr])
    · exact iff_of_false (by rcases herr with herr | herr <;> simp [herr]) (not_not_intro hp)

/-! ## A decode in progress (R17, R66, R75) -/

/-- Besides the dictionary's part only BP, OFF, NCODES and LEN are asked. -/
theorem RunInv.congr (h : RunInv s) (hd : DictInv t) (hbp : t.bp = s.bp) (hoff : t.off = s.off)
    (hn : t.ncodes = s.ncodes) (hl : t.len = s.len) : RunInv t :=
  ⟨hd, by rw [hbp]; exact h.bpPos, by rw [hn, hbp, hoff]; exact h.codesLe, by rw [hbp, hoff, hl]; exact h.posLe⟩

/-- EXTRACT moves the position past a code of at least two bits that lies inside the buffer. -/
theorem RunInv.advance (h : RunInv s) {i : Instr} {idx : Code} {w : Nat} (hd : s.decoded = .code i idx w) :
    RunInv (advance idx w s) := by
  obtain ⟨-, hok, hneed, -⟩ := decodeWindow_code hd
  have hw := ((widthOk_iff w).mp hok).1
  have hbp := h.bpPos
  have hcodes := h.codesLe
  have hpos := bitPos_advance idx w s
  have hbp' : s.bp ≤ (Machine.advance idx w s).bp := Nat.le_add_right _ _
  rw [State.bitPos, State.bitPos] at hpos
  rw [codeNeed] at hneed
  refine ⟨h.toDictInv.congr rfl rfl rfl rfl rfl, hbp.trans hbp', ?_, ?_⟩
  · rw [advance_ncodes]
    omega
  · rw [advance_len]
    omega

theorem RunInv.of_exec (h : RunInv s) {i : Instr} (hn : exec i s = .next t) : RunInv t :=
  have hk := exec_keeps hn
  h.congr (h.toDictInv.of_exec hn) hk.bp hk.off hk.ncodes hk.len

/-- START's position is the first bit of the codes, and no code has been read (R60). -/
theorem runInv_startLegal {k : BitVec 9} (len : Nat) (hk : legalK k = true) (hcap : k.toNat + 2 ≤ s.dictCap) :
    RunInv (startLegal k len s) :=
  ⟨dictInv_startLegal len hk hcap, le_rfl, le_rfl, Nat.zero_le _⟩

/-! ## Each thing a step can do keeps it -/

/-- A turn that only the host's turns and IN show. -/
theorem Inv.withHost (h : Inv s) (rest : List HostTurn) {m : List Host.Cell} (hm : Memory.wf m = true) :
    Inv { s with host := rest, inMem := m } :=
  ⟨hm, h.capMax, h.outBelowK, h.errPhase, fun hr =>
    (h.inRun hr).congr ((h.inRun hr).toDictInv.congr rfl rfl rfl rfl rfl) rfl rfl rfl rfl⟩

theorem Inv.advance (h : Inv s) (hr : s.phase = .run) {i : Instr} {idx : Code} {w : Nat}
    (hd : s.decoded = .code i idx w) : Inv (advance idx w s) :=
  ⟨h.memWf, h.capMax, h.outBelowK, h.errPhase, fun _ => (h.inRun hr).advance hd⟩

/-- A code performed in RUN. -/
theorem Inv.of_exec (h : Inv s) (hr : s.phase = .run) {i : Instr} (hn : exec i s = .next t) : Inv t := by
  have hk := exec_keeps hn
  have hrun := h.inRun hr
  have herr : s.err = .none := h.errPhase.mpr (by simp [hr])
  obtain ⟨p, hout, -, hp⟩ := hrun.toDictInv.exec_emits hn
  refine ⟨by rw [hk.inMem]; exact h.memWf, by rw [hk.dictCap]; exact h.capMax, ?_, exec_errPhase hn hr herr,
    fun _ => hrun.of_exec hn⟩
  rw [hk.k, hout]
  exact h.outBelowK.append hp

/-- A fault leaves FAULT with an error, so nothing is asked of the run any more (R104). -/
theorem Inv.raise (h : Inv s) {e : ErrCode} (he : e ≠ .none) (record : ErrInfo → ErrInfo) : Inv (raise e record s) :=
  ⟨h.memWf, h.capMax, h.outBelowK, iff_of_false he (not_not_intro rfl), nofun⟩

/-- The block's STEP in RUN: a code performed behind EXTRACT, or TRUNCATED_LZW (R63, R75). -/
theorem Inv.of_stepCode (h : Inv s) (hr : s.phase = .run) (hn : stepCode s = .next t) : Inv t := by
  rcases stepCode_next hn with ⟨i, idx, w, hd, he⟩ | ⟨-, rfl⟩
  · exact (h.advance hr hd).of_exec hr he
  · exact h.raise (e := .truncatedLzw) nofun _

theorem Inv.resetCommand (h : Inv s) : Inv (resetCommand s) :=
  ⟨h.memWf, h.capMax, nofun, iff_of_true rfl nofun, nofun⟩

theorem Inv.startLegal (h : Inv s) {k : BitVec 9} (len : Nat) (hk : legalK k = true)
    (hcap : k.toNat + 2 ≤ s.dictCap) : Inv (startLegal k len s) :=
  ⟨h.memWf, h.capMax, nofun, iff_of_true rfl nofun, fun _ => runInv_startLegal len hk hcap⟩

theorem Inv.startIllegal (h : Inv s) (k : BitVec 9) (len : Nat) : Inv (startIllegal k len s) :=
  ⟨h.memWf, h.capMax, nofun, iff_of_false nofun (not_not_intro rfl), nofun⟩

end Sys2Proof.Safety
end

section
/-! PROOFS. The statements of the family 42_dictionary_builder. -/

namespace Sys2Proof

open Machine Safety

/-- Settles O46: the host's turn used up, a step is the block's own STEP, a turn that holds the block, or a command;
each of them keeps the invariant. -/
theorem stepKeepsInvariant : Obligations.StepKeepsInvariant := by
  intro s t h hstep
  have hhost (rest : List HostTurn) : Inv { s with host := rest } := h.withHost rest h.memWf
  rcases step_next hstep with ⟨u, hu, hr⟩ | ⟨rest, -, rfl⟩ | ⟨a, b, rest, -, -, rfl⟩ | ⟨rest, -, rfl⟩ |
    ⟨k, len, rest, -, ⟨-, rfl⟩ | ⟨-, hk, hcap, rfl⟩ | ⟨-, -, rfl⟩⟩
  · have hinv : Inv u := by
      rcases hu with ⟨-, rfl⟩ | ⟨rest, -, rfl⟩
      · exact h
      · exact hhost rest
    rcases hr with ⟨hrun, hn⟩ | ⟨-, rfl⟩
    · exact hinv.of_stepCode hrun hn
    · exact hinv
  · exact hhost rest
  · exact h.withHost rest (Memory.wf_write a b h.memWf)
  · exact (hhost rest).resetCommand
  · exact hhost rest
  · exact (hhost rest).startLegal len hk hcap
  · exact (hhost rest).startIllegal k len

/-- Settles O31: the candidate has two indices or more, for PREV is not empty, and no base entry has. -/
theorem learnAlwaysAppends : Obligations.LearnAlwaysAppends := by
  intro s q x h hq
  have hne := (h.prevOk q hq).2
  have hpos := List.length_pos_iff.mpr hne
  exact ⟨h.baseHas_of_two_le (by rw [List.length_append, List.length_singleton]; omega),
    learn_of_base h.origEq h.base hq hne⟩

/-- Settles O32: the dictionary's part holds before the step and after the code, and only CLR takes entries away. -/
theorem sizeGrowsByAtMostOne : Obligations.SizeGrowsByAtMostOne := by
  intro s t h hr hb hstep
  have hrun := h.inRun hr
  have horig := hrun.origEq
  refine ⟨horig, horig ▸ hrun.size_ge, hrun.sizeLe, ?_⟩
  rcases step_next_blockTurn hr hb hstep with ⟨i, idx, w, hd, he⟩ | ⟨-, rfl⟩
  · have hadv : DictInv (advance idx w { s with host := s.host.tail }) := hrun.toDictInv.congr rfl rfl rfl rfl rfl
    refine ⟨(hadv.of_exec he).sizeLe, ?_⟩
    rcases hadv.exec_size he with hsize | hsize | ⟨hsize, rfl⟩
    · exact .inl hsize
    · exact .inr (.inl hsize)
    · exact .inr (.inr ⟨hsize, idx, w, hd⟩)
  · exact ⟨hrun.sizeLe, .inl rfl⟩

/-- Settles O28: the length, the palette's entries and the two reserved ones. -/
theorem dictInitLayout : Obligations.DictInitLayout := fun k =>
  ⟨dictInit_length k, fun _ hi => dictInit_getElem? hi, dictInit_getElem?_reserved le_rfl (by omega),
    dictInit_getElem?_reserved (by omega) (by omega)⟩

/-- Settles O29: the entries below ORIG are DICT_INIT's; where there are no others, all of them are kept. -/
theorem truncateRestoresInit : Obligations.TruncateRestoresInit := by
  intro s h
  refine ⟨h.dictTruncate_eq, h.dictTruncate_size.trans h.origEq.symm, h.origEq, fun hs => ?_⟩
  rw [dictTruncate, ← hs, size_eq_length, List.take_length]

/-- Settles O30: the two ends of DictAppend, and that what is appended stands behind the former entries. -/
theorem appendTakesNextCode : Obligations.AppendTakesNextCode := by
  refine fun p s => ⟨fun hfull => ⟨_, dictAppend_of_full hfull, faultedAtCode_raise _ s⟩, fun hroom =>
    ⟨pushEntry p s, dictAppend_of_room hroom, rfl, ?_, fun c hc => ?_, pushEntry_size p s, ?_⟩⟩
  · exact List.getElem?_concat_length
  · exact List.getElem?_append_left hc
  · rw [ctx_size, pushEntry_size]

end Sys2Proof
end

section
/-! PROOFS. The exact ends of each class of code: a phrase emitted, the entry of R79, R94 and R95 appended or DICT_FULL
raised, PREV replaced; NO_PREFIX where there is no previous phrase (rules R83, R90 to R96, R104). -/

namespace Sys2Proof.Machine

open Safety

variable {s t : State} {p q cand xs : Phrase} {x : Byte}

/-! ## The end that LIT, REF, IMP and BYD share -/

/-- Emit `p`, append `cand`, and make `p` the previous phrase (R92 to R95). -/
def emitAppend (p cand : Phrase) (s : State) : Flow :=
  (dictAppend cand (emit p s)).andThen fun t => .cont (setPrev p t)

theorem emitAppend_of_room (h : s.size ≠ s.dictCap) :
    emitAppend p cand s = .cont (setPrev p (pushEntry cand (emit p s))) := by
  rw [emitAppend, dictAppend_of_room (s := emit p s) h, andThen_cont]

theorem emitAppend_of_full (h : s.size = s.dictCap) :
    emitAppend p cand s = .raised (raise .dictFull (recordCode (emit p s)) (emit p s)) := by
  rw [emitAppend, dictAppend_of_full (s := emit p s) h, andThen_raised]

/-- With room the phrase is emitted, the entry appended at SIZE, and the phrase becomes PREV; nothing else changes. -/
theorem emitAppend_outcome_of_room (h : s.size ≠ s.dictCap) :
    (emitAppend p cand s).outcome =
      .next { s with out := s.out ++ p, dict := s.dict ++ [cand], prev := some p } := by
  rw [emitAppend_of_room h, outcome_cont]
  rfl

/-- At capacity the phrase has been emitted when DICT_FULL is raised (R83, R104). -/
theorem emitAppend_outcome_of_full (h : s.size = s.dictCap) :
    ∃ t, (emitAppend p cand s).outcome = .next t ∧ FaultedAtCode .dictFull { s with out := s.out ++ p } t :=
  ⟨_, by rw [emitAppend_of_full h, outcome_raised], faultedAtCode_raise .dictFull (emit p s)⟩

/-! ## The known codes (R92, R93) -/

theorem exec_lit_of_lt {n : Code} (h : n.toNat < s.k.toNat) : exec (.lit n) s = (performKnown n.toNat s).outcome :=
  if_pos h

theorem exec_ref_of_lt {c : Code} (hlo : s.k.toNat + 2 ≤ c.toNat) (hhi : c.toNat < s.size) :
    exec (.ref c) s = (performKnown c.toNat s).outcome :=
  if_pos ⟨hlo, hhi⟩

/-- Without a previous phrase a known code learns nothing. -/
theorem performKnown_of_prev_none {c : Nat} (hget : s.dict[c]? = some (x :: xs)) (hq : s.prev = none) :
    performKnown c s = .cont (setPrev (x :: xs) (emit (x :: xs) s)) := by
  rw [performKnown, withPhrase_of_some hget, learn_of_none (s := emit (x :: xs) s) hq, andThen_cont]

/-- With a previous phrase a known code of a run always appends, for LEARN's check finds no candidate (R82). -/
theorem performKnown_of_prev_some (h : DictInv s) {c : Nat} (hget : s.dict[c]? = some (x :: xs))
    (hq : s.prev = some q) : performKnown c s = emitAppend (x :: xs) (q ++ [x]) s := by
  rw [performKnown, withPhrase_of_some hget,
    learn_of_base (s := emit (x :: xs) s) h.origEq h.base hq (h.prevOk q hq).2, emitAppend]

/-- A literal's entry is the phrase of its own index (R76, R92). -/
theorem dict_of_lit (h : DictInv s) {n : Code} (hn : n.toNat < s.k.toNat) :
    s.dict[n.toNat]? = some [n.setWidth 8] := by
  rw [h.dict_of_literal hn, BitVec.ofNat_toNat]

/-! ## The absent codes (R94, R95, R96) -/

theorem exec_imp : exec .imp s = (performImplied s).outcome := rfl

/-- BYD is its warning and then IMP (R95). -/
theorem exec_byd_of_lt {c : Code} (h : s.size < c.toNat) : exec (.byd c) s = exec .imp (warn .dictCorrupt c s) :=
  if_pos h

theorem performImplied_of_prev_none (hq : s.prev = none) :
    performImplied s = .raised (raise .noPrefix (recordCode s) s) :=
  withImplied_of_none hq

theorem performImplied_of_prev_nil (hq : s.prev = some []) : performImplied s = .stuck .emptyPhrase := by
  rw [performImplied, withImplied, hq]

theorem performImplied_of_prev_cons (hq : s.prev = some (x :: xs)) :
    performImplied s = emitAppend (x :: xs ++ [x]) (x :: xs ++ [x]) s := by
  rw [performImplied, withImplied_of_some hq (List.cons_ne_nil x xs)]
  rfl

theorem exec_imp_of_prev_none (hq : s.prev = none) : ∃ t, exec .imp s = .next t ∧ FaultedAtCode .noPrefix s t :=
  ⟨_, by rw [exec_imp, performImplied_of_prev_none hq, outcome_raised], faultedAtCode_raise .noPrefix s⟩

/-! ## IMP does not read the warnings (R94, R95) -/

/-- The state with another warning log. -/
def State.withWarnings (log : List WarnRec) (s : State) : State :=
  { s with warnLog := log }

theorem warn_eq_withWarnings (c : Code) :
    warn .dictCorrupt c s =
      s.withWarnings (s.warnLog ++ [{ kind := .dictCorrupt, code := c, size := s.size, ncodes := s.ncodes }]) := rfl

theorem emitAppend_withWarnings (log : List WarnRec) :
    emitAppend p cand (s.withWarnings log) = (emitAppend p cand s).map (State.withWarnings log) := by
  by_cases h : s.size = s.dictCap
  · rw [emitAppend_of_full h, emitAppend_of_full (s := s.withWarnings log) h]
    rfl
  · rw [emitAppend_of_room h, emitAppend_of_room (s := s.withWarnings log) h]
    rfl

theorem performImplied_withWarnings (log : List WarnRec) :
    performImplied (s.withWarnings log) = (performImplied s).map (State.withWarnings log) := by
  rcases hq : s.prev with _ | _ | ⟨x, xs⟩
  · rw [performImplied_of_prev_none hq, performImplied_of_prev_none (s := s.withWarnings log) hq]
    rfl
  · rw [performImplied_of_prev_nil hq, performImplied_of_prev_nil (s := s.withWarnings log) hq]
    rfl
  · rw [performImplied_of_prev_cons hq, performImplied_of_prev_cons (s := s.withWarnings log) hq,
      emitAppend_withWarnings]

theorem outcome_map_fault {g : State → State} {w : Flow} {f : Fault} (h : w.outcome = .fault f) :
    (w.map g).outcome = .fault f := by
  cases w with
  | cont | raised => cases h
  | stuck r => exact h

/-! ## The size and the previous-phrase flag after a code (R99) -/

/-- A code that answers a next state meets its class's condition. -/
theorem inClass_of_exec {i : Instr} (h : exec i s = .next t) : i.inClass s.ctx = true := by
  cases i with
  | clr | eoi | imp => rfl
  | lit n =>
    refine decide_eq_true (by_contra fun hn => ?_)
    have hstop : exec (.lit n) s = .fault .operandOutOfClass := if_neg hn
    cases hstop.symm.trans h
  | ref c =>
    refine decide_eq_true (by_contra fun hc => ?_)
    have hstop : exec (.ref c) s = .fault .operandOutOfClass := if_neg hc
    cases hstop.symm.trans h
  | byd c =>
    refine decide_eq_true (by_contra fun hc => ?_)
    have hstop : exec (.byd c) s = .fault .operandOutOfClass := if_neg hc
    cases hstop.symm.trans h

/-- An append that raises nothing leaves SIZE + 1 and a previous phrase. -/
theorem ctx_of_emitAppend (hn : (emitAppend p cand s).outcome = .next t) (hf : t.phase ≠ .fault) :
    (t.ctx, t.prevValid) = ({ s.ctx with size := s.ctx.size + 1 }, true) := by
  by_cases hs : s.size = s.dictCap
  · rw [emitAppend_of_full hs] at hn
    cases hn
    exact absurd rfl hf
  · rw [emitAppend_of_room hs] at hn
    cases hn
    have hsize : (setPrev p (pushEntry cand (emit p s))).size = s.size + 1 := pushEntry_size cand (emit p s)
    rw [State.ctx, hsize]
    rfl

/-- A known code of a run leaves what the table has for LIT and for REF alike: SIZE grows where there was a PREV. -/
theorem nextCtx_of_performKnown (h : DictInv s) {c : Nat} (hn : (performKnown c s).outcome = .next t)
    (hf : t.phase ≠ .fault) (n : Code) : nextCtx s.ctx s.prevValid (.lit n) = (t.ctx, t.prevValid) := by
  obtain ⟨f, e⟩ | ⟨x, xs, hget, -⟩ := performKnown_cases c s
  · rw [e] at hn
    cases hn
  · cases hq : s.prev with
    | none =>
      rw [performKnown_of_prev_none hget hq] at hn
      cases hn
      rw [State.prevValid, hq]
      rfl
    | some q =>
      rw [performKnown_of_prev_some h hget hq] at hn
      rw [State.prevValid, hq, ctx_of_emitAppend hn hf]
      rfl

theorem nextCtx_of_performImplied (hn : (performImplied s).outcome = .next t) (hf : t.phase ≠ .fault) :
    nextCtx s.ctx s.prevValid .imp = (t.ctx, t.prevValid) := by
  rcases hq : s.prev with _ | _ | ⟨x, xs⟩
  · rw [performImplied_of_prev_none hq] at hn
    cases hn
    exact absurd rfl hf
  · rw [performImplied_of_prev_nil hq] at hn
    cases hn
  · rw [performImplied_of_prev_cons hq] at hn
    rw [ctx_of_emitAppend hn hf]
    rfl

end Sys2Proof.Machine
end

section
/-! PROOFS. The machine against the one function of R100: each STEP is one turn of the function's loop, by the value the
code has as a sum of bits and by what its class does (rules R73, R75, R90 to R96, R100). -/

namespace Sys2Proof.Machine

open Safety

variable {s t : State} {p q cand xs : Phrase} {x : Byte}

/-! ## The value of a code as a sum of bits (R73, R100) -/

theorem bufferSum_lt (mem : List Host.Cell) (start w : Nat) : bufferSum mem start w < 2 ^ w := by
  induction w with
  | zero => exact Nat.one_pos
  | succ w ih =>
    have hbit := Nat.mul_le_mul_right (2 ^ w) (Bool.toNat_le (bufferBit mem (start + w)))
    rw [bufferSum, pow_succ]
    omega

theorem bufferSum_testBit (mem : List Host.Cell) (start : Nat) {w b : Nat} (hb : b < w) :
    (bufferSum mem start w).testBit b = bufferBit mem (start + b) := by
  induction w with
  | zero => exact absurd hb (Nat.not_lt_zero b)
  | succ w ih =>
    rw [bufferSum, Nat.add_comm, Nat.mul_comm, Nat.testBit_two_pow_mul_add _ (bufferSum_lt mem start w)]
    rcases Nat.lt_succ_iff_lt_or_eq.mp hb with hlt | rfl
    · rw [if_pos hlt, ih hlt]
    · rw [if_neg (lt_irrefl b), Nat.sub_self]
      cases bufferBit mem (start + b) <;> rfl

/-- The value of a code inside the buffer is the sum of R100. -/
theorem codeValue_toNat_eq_bufferSum {w : Nat} (hw : w ≤ 16) (hlen : s.bitPos + w ≤ 8 * s.len) :
    (codeValue s.win s.off w).toNat = bufferSum s.inMem s.bitPos w := by
  have hsum := bufferSum_lt s.inMem s.bitPos w
  have h16 : 2 ^ w ≤ 2 ^ 16 := Nat.pow_le_pow_right (by omega) hw
  have hoff := s.off.isLt
  have hval : codeValue s.win s.off w = BitVec.ofNat 16 (bufferSum s.inMem s.bitPos w) := by
    refine codeValue_eq_ofNat hw hsum fun b hb => ?_
    rw [bufferSum_testBit s.inMem s.bitPos hb, win_getLsbD s (by omega), ← Nat.add_assoc]
    exact inBit_of_lt (by rw [State.bitPos] at hlen; omega)
  rw [hval, BitVec.toNat_ofNat, Nat.mod_eq_of_lt (by omega)]

/-! ## The function's locals, and what a turn of its loop answers (R68, R100) -/

/-- The locals of R100's function, as the block holds them. -/
def State.whole (s : State) : WholeState :=
  { dict := s.dict, prev := s.prev, out := s.out, warnLog := s.warnLog, bp := s.bp, off := s.off.toNat, n := s.ncodes }

/-- What a turn of R100's loop answers where the block's STEP leaves the state: the result, if there is one. -/
def State.wholeNext (s : State) : WholeNext :=
  match s.result with
  | some r => .done r
  | none => .more s.whole

theorem wholeNext_of_result {r : RunResult} (h : s.result = some r) : s.wholeNext = .done r := by
  rw [State.wholeNext, h]

theorem wholeNext_of_run (h : s.phase = .run) : s.wholeNext = .more s.whole := by
  rw [State.wholeNext, result_of_not_over (by rw [h]; nofun) (by rw [h]; nofun)]

theorem wholeNext_raise (e : ErrCode) (r : ErrInfo → ErrInfo) (s : State) :
    (raise e r s).wholeNext = .done (.error e s.warnLog) :=
  rfl

/-! ## A code's class is the function's branch (R90 to R96, R100) -/

/-- The append that the function writes out in both of its branches. -/
theorem wholeNext_of_emitAppend (hr : s.phase = .run) (hn : (emitAppend p cand s).outcome = .next t) :
    (if s.dict.length = s.dictCap then .done (.error .dictFull s.warnLog)
      else .more { s.whole with out := s.out ++ p, dict := s.dict ++ [cand], prev := some p }) = t.wholeNext := by
  by_cases hs : s.size = s.dictCap
  · rw [emitAppend_of_full hs] at hn
    cases hn
    exact if_pos hs
  · rw [emitAppend_of_room hs] at hn
    cases hn
    exact (if_neg hs).trans (wholeNext_of_run (s := setPrev p (pushEntry cand (emit p s))) hr).symm

theorem wholeKnown_eq_wholeNext (h : DictInv s) (hr : s.phase = .run) {c : Nat} (hget : s.dict[c]? = some (x :: xs))
    (hn : (performKnown c s).outcome = .next t) :
    wholeKnown s.k.toNat s.dictCap (x :: xs) s.whole = t.wholeNext := by
  cases hq : s.prev with
  | none =>
    rw [performKnown_of_prev_none hget hq] at hn
    cases hn
    rw [wholeNext_of_run (s := setPrev (x :: xs) (emit (x :: xs) s)) hr, wholeKnown, State.whole, hq]
    rfl
  | some q =>
    rw [performKnown_of_prev_some h hget hq] at hn
    have hpos := List.length_pos_iff.mpr (h.prevOk q hq).2
    have hnew : q ++ [x] ∉ s.dict.take (s.k.toNat + 2) := by
      rw [← h.origEq]
      exact of_decide_eq_false (h.baseHas_of_two_le (by rw [List.length_append, List.length_singleton]; omega))
    rw [← wholeNext_of_emitAppend hr hn, wholeKnown, State.whole, hq]
    exact if_neg hnew

theorem wholeAbsent_eq_wholeNext (hr : s.phase = .run) (hn : (performImplied s).outcome = .next t) :
    wholeAbsent s.dictCap s.whole = t.wholeNext := by
  rcases hq : s.prev with _ | _ | ⟨x, xs⟩
  · rw [performImplied_of_prev_none hq] at hn
    cases hn
    rw [wholeNext_raise, wholeAbsent, State.whole, hq]
  · rw [performImplied_of_prev_nil hq] at hn
    cases hn
  · rw [performImplied_of_prev_cons hq] at hn
    rw [← wholeNext_of_emitAppend hr hn, wholeAbsent, State.whole, hq]
    rfl

/-- The branch for a known code: the value is neither reserved nor absent. -/
theorem wholeCode_of_known {k cap c : Nat} {v : WholeState} (hk : c ≠ k) (hk1 : c ≠ k + 1)
    (hget : v.dict[c]? = some p) : wholeCode k cap c v = wholeKnown k cap p v := by
  obtain ⟨hlt, hp⟩ := List.getElem?_eq_some_iff.mp hget
  rw [wholeCode, if_neg hk, if_neg hk1, if_pos hlt, List.getD_eq_getElem _ _ hlt, hp]

/-- A code performed in a run answers what R100's function does with the code's value. -/
theorem wholeCode_eq_wholeNext (h : DictInv s) (hr : s.phase = .run) {i : Instr} (hn : exec i s = .next t) :
    wholeCode s.k.toNat s.dictCap (codeIdx s.ctx i) s.whole = t.wholeNext := by
  have hi := inClass_of_exec hn
  have hsize : s.k.toNat + 2 ≤ s.whole.dict.length := h.size_ge
  cases i with
  | clr =>
    cases hn
    rw [wholeNext_of_run (s := clearPrev (dictTruncate s)) hr, wholeCode, codeIdx, ctx_k, if_pos rfl, ← h.origEq]
    rfl
  | eoi =>
    cases hn
    rw [wholeCode, codeIdx, ctx_k, if_neg (Nat.succ_ne_self _), if_pos rfl]
    rfl
  | lit n =>
    have hlt : n.toNat < s.k.toNat := of_decide_eq_true hi
    have hget := dict_of_lit h hlt
    rw [exec_lit_of_lt hlt] at hn
    rw [← wholeKnown_eq_wholeNext h hr hget hn]
    exact wholeCode_of_known (c := n.toNat) (v := s.whole) (by omega) (by omega) hget
  | ref c =>
    obtain ⟨hlo, hhi⟩ : s.k.toNat + 2 ≤ c.toNat ∧ c.toNat < s.size := of_decide_eq_true hi
    obtain ⟨x, xs, hget⟩ := h.dict_of_learned hlo hhi
    rw [exec_ref_of_lt hlo hhi] at hn
    rw [← wholeKnown_eq_wholeNext h hr hget hn]
    exact wholeCode_of_known (c := c.toNat) (v := s.whole) (by omega) (by omega) hget
  | imp =>
    have hval : codeIdx s.ctx .imp = s.whole.dict.length := rfl
    rw [← wholeAbsent_eq_wholeNext hr hn, wholeCode, hval, if_neg (by omega), if_neg (by omega), if_neg (lt_irrefl _),
      if_neg (lt_irrefl _)]
  | byd c =>
    have hlt : s.whole.dict.length < c.toNat := of_decide_eq_true hi
    rw [exec_byd_of_lt hlt] at hn
    rw [wholeCode, codeIdx, if_neg (by omega), if_neg (by omega), if_neg (by omega), if_pos hlt, BitVec.ofNat_toNat,
      BitVec.setWidth_eq]
    exact wholeAbsent_eq_wholeNext (s := warn .dictCorrupt c s) hr hn

/-! ## A STEP is a turn of the loop, a run is the loop (R63, R75, R100) -/

/-- A code that lies inside the buffer is read and performed with the position behind it, whatever CODE records. -/
theorem wholeTurn_of_le {k cap : Nat} (idx : Code) (hle : s.bitPos + codeWidth s.size ≤ 8 * s.len) :
    wholeTurn k cap s.len s.inMem s.whole =
      wholeCode k cap (bufferSum s.inMem s.bitPos (codeWidth s.size)) (advance idx (codeWidth s.size) s).whole := by
  have hbehind : (advance idx (codeWidth s.size) s).whole =
      { s.whole with
        bp := s.bp + (s.off.toNat + codeWidth s.size) / 8
        off := (s.off.toNat + codeWidth s.size) % 8
        n := s.ncodes + 1 } := by
    rw [State.whole, advance_off, codeNextOff_toNat]
    rfl
  rw [hbehind]
  exact if_neg (not_lt.mpr hle)

theorem wholeTurn_of_lt {k cap : Nat} (hlt : 8 * s.len < s.bitPos + codeWidth s.size) :
    wholeTurn k cap s.len s.inMem s.whole = .done (.error .truncatedLzw s.warnLog) :=
  if_pos hlt

/-- A STEP of a run answers what a turn of the loop answers. -/
theorem wholeTurn_eq_wholeNext (h : Running s) (hn : step s = .next t) :
    wholeTurn s.k.toNat s.dictCap s.len s.inMem s.whole = t.wholeNext := by
  have hok := h.widthOk h.capMax
  obtain ⟨hw2, hw16⟩ := (widthOk_iff _).mp hok
  have hmissing : s.len < s.bp + codeNeed s.off (codeWidth s.size) ↔ 8 * s.len < s.bitPos + codeWidth s.size :=
    lt_add_codeNeed_iff s.len s.bp s.off _
  rw [step_nil h.quiet, stepBlock_run h.run] at hn
  rcases stepCode_next hn with ⟨i, idx, w, hd, he⟩ | ⟨hd, rfl⟩
  · obtain ⟨rfl, -, hneed, hidx, rfl⟩ := decodeWindow_code hd
    rw [ctx_size] at hneed hidx he
    have hpos := codeNeed_pos s.off (w := codeWidth s.size) (by omega)
    have hle : s.bitPos + codeWidth s.size ≤ 8 * s.len := by omega
    have hval : codeIdx s.ctx (classify s.ctx idx) = bufferSum s.inMem s.bitPos (codeWidth s.size) := by
      rw [(codeIdx_and_inClass_classify s.ctx idx).1, hidx, codeValue_toNat_eq_bufferSum hw16 hle]
    rw [wholeTurn_of_le idx hle, ← hval]
    have hadv : DictInv (advance idx (codeWidth s.size) s) := h.toDictInv.congr rfl rfl rfl rfl rfl
    exact wholeCode_eq_wholeNext hadv h.run he
  · exact wholeTurn_of_lt (hmissing.mp ((exists_extract_truncated_iff hok).mp ⟨_, extract_of_truncated hd⟩))

/-- A step with nothing from the host leaves K and DICT_CAP. -/
theorem step_quiet_parameters (hh : s.host = []) (hn : step s = .next t) : t.k = s.k ∧ t.dictCap = s.dictCap := by
  rcases step_next_quiet hh hn with ⟨-, rfl⟩ | ⟨i, idx, w, -, -, he⟩ | ⟨-, -, rfl⟩
  · exact ⟨rfl, rfl⟩
  · exact ⟨(exec_keeps he).k, (exec_keeps he).dictCap⟩
  · exact ⟨rfl, rfl⟩

theorem exists_result_of_over (h : Over s) : ∃ r, s.result = some r :=
  h.elim (fun hp => ⟨_, result_of_done hp⟩) fun hp => ⟨_, result_of_fault hp⟩

/-- The result of a run that is over is the value of the loop, with as many turns as the run had steps. -/
theorem wholeLoop_eq_result (h : Running s) {n : Nat} (hn : core.run n s = .next t) (ht : Over t) :
    wholeLoop s.k.toNat s.dictCap s.len s.inMem n s.whole = t.result := by
  induction n generalizing s with
  | zero =>
    cases hn
    rcases ht with hp | hp <;> cases h.run.symm.trans hp
  | succ n ih =>
    obtain ⟨u, hu, hq, hend⟩ := h.step
    rw [run_succ_next hu] at hn
    rw [wholeLoop, wholeTurn_eq_wholeNext h hu]
    rcases hend with hover | ⟨hrun, hlen, -⟩
    · obtain ⟨r, hr⟩ := exists_result_of_over hover
      have hp : u.phase ≠ .run := by rcases hover with hp | hp <;> simp [hp]
      cases (run_quiescent n hq hp).symm.trans hn
      rw [wholeNext_of_result hr, hr]
    · obtain ⟨hk, hcap⟩ := step_quiet_parameters h.quiet hu
      have hmem := (step_quietKeeps h.quiet hu).inMem
      rw [wholeNext_of_run hrun.run, ← hk, ← hcap, ← hlen, ← hmem]
      exact ih hrun hn

end Sys2Proof.Machine
end

section
/-! PROOFS. The statements of the family 43_phrase_pipeline. -/

namespace Sys2Proof

open Machine Safety

/-- Settles O59: START gives the function's locals their first values, each STEP is a turn of the loop, and the run ends
within the steps of R66, which are the turns the function is given. -/
theorem runComputesWholeFunction : Obligations.RunComputesWholeFunction := by
  intro s k len hh hp hk hcap hmax
  obtain ⟨t, hrun, hover⟩ := everyRunEnds s k len hh hp hk hcap hmax
  obtain ⟨r, hr⟩ := exists_result_of_over hover
  have hstart : step s = .next (startLegal k len { s with host := [] }) := by
    rw [step_start hh]
    exact startCommand_legal (s := { s with host := [] }) hp hk hcap
  have hrunning : Running (startLegal k len { s with host := [] }) :=
    ⟨dictInv_startLegal (s := { s with host := [] }) len hk hcap, rfl, rfl, hmax⟩
  have hrest := hrun
  rw [Nat.add_comm, run_succ_next hstart] at hrest
  exact ⟨t, r, hrun, hr, (wholeLoop_eq_result hrunning hrest hover).trans hr⟩

/-- Settles O35: the literal's entry is its own index; LEARN appends exactly where there is a previous phrase. -/
theorem literalEmitsAndLearns : Obligations.LiteralEmitsAndLearns := by
  intro s n h hn
  have hget := dict_of_lit h hn
  rw [exec_lit_of_lt hn]
  refine ⟨fun hq => ?_, fun q hq hroom => ?_, fun q hq hfull => ?_⟩
  · rw [performKnown_of_prev_none hget hq, outcome_cont]
    rfl
  · rw [performKnown_of_prev_some h hget hq, emitAppend_outcome_of_room hroom]
  · rw [performKnown_of_prev_some h hget hq]
    exact emitAppend_outcome_of_full hfull

/-- Settles O36: a dictionary with a learned entry has a previous phrase, and a learned entry two indices or more. -/
theorem referenceEmitsAndLearns : Obligations.ReferenceEmitsAndLearns := by
  intro s c h hlo hhi
  obtain ⟨q, hq⟩ := Option.ne_none_iff_exists'.mp (h.prevOfLearned (hlo.trans_lt hhi))
  obtain ⟨x, xs, hget⟩ := h.dict_of_learned hlo hhi
  have hlen : 2 ≤ (x :: xs).length := (h.learned _ _ hlo hget).1
  rw [exec_ref_of_lt hlo hhi, performKnown_of_prev_some h hget hq]
  exact ⟨q, x, xs, hq, hget, List.length_pos_iff.mp (Nat.le_of_succ_le_succ hlen), emitAppend_outcome_of_room,
    emitAppend_outcome_of_full⟩

/-- Settles O40: BYD is IMP with one warning more, and IMP's statements commute with a change of the warning log. -/
theorem beyondCodeValueOnlyWarns : Obligations.BeyondCodeValueOnlyWarns := by
  intro s c hc
  rw [exec_byd_of_lt hc, exec_imp, exec_imp, warn_eq_withWarnings, performImplied_withWarnings]
  exact ⟨fun t => outcome_map_next, fun f => outcome_map_fault⟩

/-- Settles O44: CLR leaves the K+2 entries of DICT_INIT and no PREV; a code that emits leaves a PREV and appends one
entry, but for LIT without a previous phrase. -/
theorem nextContextAsTheTable : Obligations.NextContextAsTheTable := by
  intro i s t h _ hn hf
  have hi := inClass_of_exec hn
  cases i with
  | clr =>
    cases hn
    have hsize : (clearPrev (dictTruncate s)).size = s.k.toNat + 2 := h.dictTruncate_size
    rw [State.ctx, State.ctx, hsize]
    rfl
  | eoi => cases hn; rfl
  | lit n =>
    rw [exec_lit_of_lt (of_decide_eq_true hi)] at hn
    exact nextCtx_of_performKnown h hn hf n
  | ref c =>
    obtain ⟨hlo, hhi⟩ := of_decide_eq_true hi
    rw [exec_ref_of_lt hlo hhi] at hn
    exact nextCtx_of_performKnown h hn hf c
  | imp => exact nextCtx_of_performImplied hn hf
  | byd c =>
    rw [exec_byd_of_lt (of_decide_eq_true hi)] at hn
    exact nextCtx_of_performImplied (s := warn .dictCorrupt c s) hn hf

/-- Settles O33: truncating to ORIG entries gives DICT_INIT's, and where there are no others and no PREV, nothing
changes. -/
theorem clearCodeResetsDictionary : Obligations.ClearCodeResetsDictionary := by
  intro s h
  have hclr : exec .clr s = .next { s with dict := dictInit s.k, prev := none } :=
    congrArg (fun u => Host.Outcome.next (clearPrev u)) h.dictTruncate_eq
  refine ⟨hclr, fun t ht => ?_, fun hs hp => ?_⟩
  · cases hclr.symm.trans ht
    have hsize : State.size { s with dict := dictInit s.k, prev := none } = s.k.toNat + 2 := dictInit_length s.k
    exact ⟨hsize, rfl, rfl, congrArg codeWidth hsize⟩
  · obtain ⟨-, -, -, hsame⟩ := truncateRestoresInit s h
    rw [exec, execClr, hsame (hs.trans h.origEq.symm), clearPrev, ← hp]

/-- Settles O34: `finish` writes STATE alone. -/
theorem endOfInformationEndsRun : Obligations.EndOfInformationEndsRun := fun _ => rfl

/-- Settles O37: with a previous phrase IMP is the append of the phrase it emits. -/
theorem impliedCodeSynthesizes : Obligations.ImpliedCodeSynthesizes := by
  intro s x xs hq
  rw [exec_imp, performImplied_of_prev_cons hq]
  exact ⟨emitAppend_outcome_of_room, emitAppend_outcome_of_full⟩

/-- Settles O38: BYD is IMP from the state with the warning recorded, and the append takes code SIZE. -/
theorem beyondCodeWarnsAndSynthesizes : Obligations.BeyondCodeWarnsAndSynthesizes := by
  intro s c x xs hc hq
  obtain ⟨hroom, hfull⟩ := impliedCodeSynthesizes (warn .dictCorrupt c s) x xs hq
  rw [exec_byd_of_lt hc]
  refine ⟨fun hs => ⟨_, hroom hs, List.getElem?_concat_length, rfl, ?_⟩, hfull⟩
  exact List.length_append

/-- Settles O39: IMP raises NO_PREFIX, and BYD is IMP from the state with the warning recorded. -/
theorem absentCodeWithoutPrefixFaults : Obligations.AbsentCodeWithoutPrefixFaults := by
  refine fun s hq => ⟨exec_imp_of_prev_none hq, fun c hc => ?_⟩
  rw [exec_byd_of_lt hc]
  exact exec_imp_of_prev_none (s := warn .dictCorrupt c s) hq

/-- Settles O42: CLR writes the dictionary and PREV alone, EOI STATE alone. -/
theorem reservedCodesFrame : Obligations.ReservedCodesFrame := by
  refine fun s t => ⟨fun h => ?_, fun h => ?_⟩
  · cases h
    exact ⟨rfl, rfl, rfl, rfl, rfl, rfl⟩
  · cases h
    exact ⟨rfl, rfl, rfl, rfl, rfl, rfl, rfl⟩

end Sys2Proof
end

section
/-! PROOFS. The statement of the family 60_exceptions. -/

namespace Sys2Proof

open Machine Safety

/-- The operand of a code beyond the dictionary is the value extracted (R53). -/
theorem operand_eq_of_decoded_byd {s : State} {c idx : Code} {w : Nat} (hd : s.decoded = .code (.byd c) idx w) :
    c = idx := by
  obtain ⟨-, -, -, -, hi⟩ := decodeWindow_code hd
  obtain ⟨hidx, -⟩ := codeIdx_and_inClass_classify s.ctx idx
  rw [← hi] at hidx
  exact BitVec.eq_of_toNat_eq hidx

/-- Settles O53: where the code is beyond the dictionary, WARN_LOG grows by the events of the WARN port, which are its one
record; where it is not, WARN_LOG stays. -/
theorem warningOnlyFromBeyond : Obligations.WarningOnlyFromBeyond := by
  intro s t hr hb h
  by_cases hd : ∃ c idx w, s.decoded = .code (.byd c) idx w
  · obtain ⟨c, idx, w, hd⟩ := hd
    obtain rfl := operand_eq_of_decoded_byd hd
    obtain ⟨hgrows, -, -, -⟩ := outputOnlyAppended
    obtain ⟨-, -, hw, -⟩ := hgrows s t (not_commandTurn_of_blockTurn hb) h
    rw [portEvents_warn_of_beyond hr hb hd h] at hw
    exact .inr ⟨c, w, hd, hw⟩
  · push Not at hd
    exact .inl ⟨step_warnLog_of_not_beyond hr hb hd h, hd⟩

end Sys2Proof
end

section
/-! PROOFS. The block's turn: with the invariant it always answers a next state, and only it could be a fault of the
model (rules R55, R63, R72, R78, R97, R117). -/

namespace Sys2Proof.Safety

open Machine

variable {s t : State}

/-- The block's turn is its own transition, the host's turn used up (R63). -/
theorem step_of_blockTurn (hb : BlockTurn s) : step s = stepBlock { s with host := s.host.tail } := by
  rcases hb with hh | ⟨rest, hh⟩
  · rw [step_nil hh, hh, List.tail_nil, ← hh]
  · rw [step_pass hh, hh, List.tail_cons]

theorem writeInCommand_ne_fault (a : Nat) (b : Byte) (s : State) (f : Fault) : writeInCommand a b s ≠ .fault f := by
  by_cases hr : s.phase = .run
  · rw [writeInCommand_run a b hr]
    nofun
  · rw [writeInCommand_quiescent a b hr]
    nofun

/-- START begins a run, is ignored, raises the block's own BAD_CONFIG, or is refused (R60 to R62; assumption log 9). -/
theorem startCommand_ne_fault (k : BitVec 9) (len : Nat) (s : State) (f : Fault) :
    startCommand k len s ≠ .fault f := by
  unfold startCommand
  split_ifs <;> nofun

/-- In every other turn than the block's the host acts or the block waits, which is no fault of the model. -/
theorem step_ne_fault_of_not_blockTurn (hb : ¬ BlockTurn s) (f : Fault) : step s ≠ .fault f := by
  rcases hh : s.host with _ | ⟨_ | _ | ⟨a, b⟩ | _ | ⟨k, len⟩, rest⟩
  case nil => exact absurd (.inl hh) hb
  case cons.pass => exact absurd (.inr ⟨rest, hh⟩) hb
  case cons.wait => rw [step_wait hh]; nofun
  case cons.writeIn => rw [step_writeIn hh]; exact writeInCommand_ne_fault a b _ f
  case cons.reset => rw [step_reset hh]; nofun
  case cons.start => rw [step_start hh]; exact startCommand_ne_fault k len _ f

/-- A STEP reads a code of some class, whatever its bits are, and performs it; or it raises TRUNCATED_LZW (R55, R75). -/
theorem DictInv.stepCode_answers (h : DictInv s) (hcap : s.dictCap ≤ 65536) : ∃ t, stepCode s = .next t := by
  have hok := h.widthOk hcap
  rcases Nat.lt_or_ge (s.len - s.bp) (codeNeed s.off (codeWidth s.size)) with hlt | hge
  · exact ⟨_, stepCode_of_truncated (decodeWindow_of_lt hok hlt)⟩
  · rw [stepCode_of_code (decodeWindow_of_le (ctx := s.ctx) hok hge)]
    set idx := codeValue s.win s.off (codeWidth s.ctx.size)
    have hadv : DictInv (advance idx (codeWidth s.ctx.size) s) := h.congr rfl rfl rfl rfl rfl
    exact hadv.exec_answers (codeIdx_and_inClass_classify s.ctx idx).2

/-- Outside RUN the block holds; in RUN it takes its STEP. -/
theorem Inv.stepBlock_answers (h : Inv s) : ∃ t, stepBlock s = .next t := by
  by_cases hr : s.phase = .run
  · rw [stepBlock_run hr]
    exact (h.inRun hr).toDictInv.stepCode_answers h.capMax
  · exact ⟨s, stepBlock_quiescent hr⟩

theorem Inv.step_answers (h : Inv s) (hb : BlockTurn s) : ∃ t, step s = .next t := by
  rw [step_of_blockTurn hb]
  exact (h.withHost s.host.tail h.memWf).stepBlock_answers

/-- What a code emits fits the room DICT_CAP leaves above K (R87, R120). -/
theorem Emits.length_le (h : Emits s t) (hs : s.size ≤ s.dictCap) :
    t.out.length ≤ s.out.length + (s.dictCap - s.k.toNat) := by
  obtain ⟨p, hout, hlen, -⟩ := h
  rw [hout, List.length_append]
  omega

end Sys2Proof.Safety
end

section
/-! PROOFS. The statements of the family 70_reset_and_hazards. -/

namespace Sys2Proof

open Machine Safety

/-- Settles O48: the block's turn answers a next state, so it is no fault of the model, and no other turn is one. -/
theorem everyStreamIsAcceptable : Obligations.EveryStreamIsAcceptable := by
  refine fun s h => ⟨fun f hf => ?_, h.step_answers⟩
  by_cases hb : BlockTurn s
  · obtain ⟨t, ht⟩ := h.step_answers hb
    cases ht.symm.trans hf
  · exact step_ne_fault_of_not_blockTurn hb f hf

/-- Settles O49: a code emits at most SIZE - K indices, whether or not DICT_FULL follows, and TRUNCATED_LZW none. -/
theorem stepOutputBounded : Obligations.StepOutputBounded := by
  intro s t h hr hb hstep
  have hrun := h.inRun hr
  rcases step_next_blockTurn hr hb hstep with ⟨i, idx, w, -, he⟩ | ⟨-, rfl⟩
  · have hadv : DictInv (advance idx w { s with host := s.host.tail }) := hrun.toDictInv.congr rfl rfl rfl rfl rfl
    exact (hadv.exec_emits he).length_le hrun.sizeLe
  · exact Nat.le_add_right _ _

end Sys2Proof
end
